-- ==== Sys2Proof/Config.lean ====
section
/-! DEFINITION. What an implementation of the block fixes: the two port widths the spec names as
parameters. There is no free value: no operation of this block has a result the spec leaves open. -/

namespace Sys2Proof

/-- A field-value input of a pack operation, `ARGW` bits wide: the one open parameter, at the spec's
default 32 (00_scope R7, D5). No pack result depends on it. DESIGN CHOICE (log entry 4). -/
abbrev Config.ArgPort := BitVec 32

/-- A `start` or `end` port, `POSW` = 5 bits wide (00_scope section 4, D3). -/
abbrev Config.PosPort := BitVec 5

end Sys2Proof
end

