-- ==== Sys2Proof/Word.lean ====
section
/-! DEFINITION. The value types that pass through the block (10_state R18). -/

namespace Sys2Proof

/-- `u32`: the instruction word, bit 0 least significant (00_scope R8, 30_encoding R30). -/
abbrev Word := BitVec 32

/-- A bit position as a port carries it, 0..31 (D3). -/
abbrev Pos := Config.PosPort

/-- An unsigned field-value input of a pack operation (00_scope R7). -/
abbrev Arg := Config.ArgPort

/-- The signed immediate input of `I_PACK`, as its two's-complement pattern (00_scope R7). -/
abbrev SArg := Config.ArgPort

abbrev U3 := BitVec 3
abbrev U5 := BitVec 5
abbrev U7 := BitVec 7
abbrev U8 := BitVec 8

/-- `s16` as its two's-complement pattern; its number is `BitVec.toInt` (00_scope R8). -/
abbrev S16 := BitVec 16

/-- `s32` as its two's-complement pattern; its number is `BitVec.toInt` (00_scope R8). -/
abbrev S32 := BitVec 32

end Sys2Proof
end

