-- ==== Sys2Proof/Syntax.lean ====
section
/-! DEFINITION. The records of 10_state R18 and the block's operations (30_encoding R44), one
constructor per row of spec/opcode_table.json, each carrying the values at its input ports
(10_state R19) in the argument order of 30_encoding R42. -/

namespace Sys2Proof

/-- `RFields`: the unpacked R-type record at its declared widths (10_state R18, D7). -/
structure RFields where
  opcode : U7
  rd     : U5
  funct3 : U3
  rs1    : U5
  rs2    : U5
  funct7 : U7
  deriving DecidableEq, Repr

/-- `IFields`: the unpacked I-type record (10_state R18). -/
structure IFields where
  opcode    : U7
  rd        : U5
  funct3    : U3
  rs1       : U5
  immediate : S32
  deriving DecidableEq, Repr

/-- `RDebugView` (10_state R18, 43_debug_view R112). -/
structure RDebugView where
  opcode : U8
  rd     : U8
  funct3 : U8
  rs1    : U8
  rs2    : U8
  funct7 : U8
  deriving DecidableEq, Repr

/-- `IDebugView` (10_state R18, 43_debug_view R113). -/
structure IDebugView where
  opcode    : U8
  rd        : U8
  funct3    : U8
  rs1       : U8
  immediate : S16
  deriving DecidableEq, Repr

/-- One evaluation: the operation and its input values. The source's `end` is written `stop`. -/
inductive Instr where
  | getBits       (word : Word) (start stop : Pos)
  | setBitsToOne  (word : Word) (start stop : Pos)
  | setBitsToZero (word : Word) (start stop : Pos)
  | rPack         (funct7 rs2 rs1 funct3 rd opcode : Arg)
  | rUnpack       (word : Word)
  | rOpcode       (word : Word)
  | rRd           (word : Word)
  | rFunct3       (word : Word)
  | rRs1          (word : Word)
  | rRs2          (word : Word)
  | rFunct7       (word : Word)
  | iPack         (immediate : SArg) (rs1 funct3 rd opcode : Arg)
  | iUnpack       (word : Word)
  | iOpcode       (word : Word)
  | iRd           (word : Word)
  | iFunct3       (word : Word)
  | iRs1          (word : Word)
  | iImmediate    (word : Word)
  | rDebugView    (fields : RFields)
  | iDebugView    (fields : IFields)
  deriving DecidableEq, Repr

end Sys2Proof
end

