-- ==== Sys2Proof/Machine/Operands.lean ====
section
/-! DEFINITION. The operand forms: bit ranges (40_bit_range_primitives R50 to R57), the two word
layouts (30_encoding R31 to R33), and the placing of a field value (R56, 42_i_type_codec R97). -/

namespace Sys2Proof.Machine

/-- `trunc_n(v)`: `v mod 2^n` with the non-negative remainder, for any integer (00_scope R8). -/
def trunc (n : Nat) (v : Int) : Nat := (v % (2 ^ n : Int)).toNat

/-- The precondition `0 ≤ start ≤ stop ≤ 31` of the bit-range operations (R50), for positions of
unbounded type; a port carries 0..31 (D3). -/
def legalRange (start stop : Nat) : Bool := decide (start ≤ stop) && decide (stop ≤ 31)

/-- `MASK(n)`: the low `n` bits set, computed on unbounded integers, so that `MASK(32)` is all
ones with no shift by 32 (R51, R142). -/
def mask (n : Nat) : Word := BitVec.ofNat 32 (2 ^ n - 1)

/-- `RANGE_MASK(start, stop)` (R52). -/
def rangeMask (start stop : Nat) : Word :=
  BitVec.ofNat 32 ((2 ^ (stop - start + 1) - 1) <<< start)

/-- The result of `GET_BITS` on a legal range (R53). -/
def extractBits (word : Word) (start stop : Nat) : Word :=
  (word >>> start) &&& mask (stop - start + 1)

/-- The result of `SET_BITS_TO_ONE` on a legal range (R54). -/
def forceOnes (word : Word) (start stop : Nat) : Word := word ||| rangeMask start stop

/-- The result of `SET_BITS_TO_ZERO` on a legal range (R55). -/
def forceZeros (word : Word) (start stop : Nat) : Word := word &&& ~~~ rangeMask start stop

/-- `SIGN_FILL(v, top)` for `0 ≤ top ≤ 30` (R57). -/
def signFill (v : Word) (top : Nat) : Word :=
  if v.getLsbD top then forceOnes v (top + 1) 31 else forceZeros v (top + 1) 31

/-- `PLACE(value, width, offset)`: the low `width` bits of any integer, moved to `offset` (R56). -/
def place (value : Int) (width offset : Nat) : Word :=
  BitVec.ofNat 32 (trunc width value <<< offset)

/-- `RAW12(immediate)` (42_i_type_codec R97). -/
def raw12 (immediate : Int) : Nat := trunc 12 immediate

/-- A field descriptor: an inclusive bit range and a declared width (30_encoding R31). -/
structure Field where
  start : Nat
  stop  : Nat
  width : Nat
  deriving DecidableEq, Repr

def opcodeField    : Field := ⟨0, 6, 7⟩
def rdField        : Field := ⟨7, 11, 5⟩
def funct3Field    : Field := ⟨12, 14, 3⟩
def rs1Field       : Field := ⟨15, 19, 5⟩
def rs2Field       : Field := ⟨20, 24, 5⟩
def funct7Field    : Field := ⟨25, 31, 7⟩
def immediateField : Field := ⟨20, 31, 12⟩

/-- The R-type layout, lowest field first (30_encoding R32). -/
def rLayout : List Field :=
  [opcodeField, rdField, funct3Field, rs1Field, rs2Field, funct7Field]

/-- The I-type layout, lowest field first (30_encoding R33). -/
def iLayout : List Field := [opcodeField, rdField, funct3Field, rs1Field, immediateField]

/-- A field of a word, right-aligned, through the bit-range primitive (41_r_type_codec R71). -/
def readField (word : Word) (field : Field) : Word := extractBits word field.start field.stop

/-- Packing as a fold over (value, width, offset) entries ORed into a zero word
(30_encoding R31, 40_bit_range_primitives R56, 70_reset R143). -/
def packFields (entries : List (Int × Field)) : Word :=
  entries.foldl (fun word entry => word ||| place entry.1 entry.2.width entry.2.start) 0

end Sys2Proof.Machine
end

