-- ==== Sys2Proof/Machine/Flags.lean ====
section
/-! DEFINITION. The one status output. The block has no flag that persists (10_state R13). -/

namespace Sys2Proof.Machine

/-- `range_fault`: a combinational function of `start` and `stop`, stored nowhere and independent
of the word (60_exceptions R123). -/
def rangeFaultFlag (start stop : Nat) : BitVec 1 := if legalRange start stop then 0 else 1

end Sys2Proof.Machine
end

