-- ==== Sys2Proof/Machine/State.lean ====
section
/-! DEFINITION. The state. The spec gives the block NO state (10_state R10 to R17): its state type is
the one-element type `Block`. The other two fields of `State` are not the block's: they are the values
on their way into and out of ONE evaluation (10_state R18, R19), which a step from state to state has
no other place for (log entry 1). The block's transition is on `Block` alone; an evaluation reads nothing
else of the state it is made in, and leaves nothing else of it behind. -/

namespace Sys2Proof.Machine

/-- The three operations of the bit-range primitive. -/
inductive BitRangeOp where
  | getBits
  | setBitsToOne
  | setBitsToZero
  deriving DecidableEq, Repr

/-- The values at the output ports of the unit evaluated (10_state R19). -/
inductive Output where
  /-- A bit-range unit on a legal range. -/
  | bits (result : Word) (rangeFault : BitVec 1)
  /-- `R_PACK` and `I_PACK`. -/
  | word (word : Word)
  /-- `R_UNPACK`. -/
  | rFields (fields : RFields)
  /-- `I_UNPACK`. -/
  | iFields (fields : IFields)
  /-- `R_OPCODE`, `I_OPCODE`. -/
  | opcode (value : U7)
  /-- `R_RD`, `I_RD`. -/
  | rd (value : U5)
  /-- `R_FUNCT3`, `I_FUNCT3`. -/
  | funct3 (value : U3)
  /-- `R_RS1`, `I_RS1`. -/
  | rs1 (value : U5)
  /-- `R_RS2`. -/
  | rs2 (value : U5)
  /-- `R_FUNCT7`. -/
  | funct7 (value : U7)
  /-- `I_IMMEDIATE`. -/
  | immediate (value : S32)
  /-- `R_DEBUG_VIEW`. -/
  | rDebugView (view : RDebugView)
  /-- `I_DEBUG_VIEW`. -/
  | iDebugView (view : IDebugView)
  deriving DecidableEq, Repr

/-- Why an evaluation has no value. -/
inductive Fault where
  /-- `RangeFault`: raised by the three bit-range operations on a range that violates
  `0 ≤ start ≤ stop ≤ 31` (60_exceptions R120). The operation and the pair are recorded for
  diagnostics only (D24). Safe: an implementation that returns some number is covered, because no
  claim goes through a faulting evaluation (D4). -/
  | rangeFault (op : BitRangeOp) (start stop : Nat)
  deriving DecidableEq, Repr

/-- Why the model gives no meaning. -/
inductive Refusal where
  /-- An operation without a meaning yet; no arm of `exec` raises it. Safe. -/
  | notModelled (mnemonic : String)
  deriving DecidableEq, Repr

/-- The block's own state: the one-element type, because nothing persists across evaluations
(10_state R10). -/
structure Block where
  deriving DecidableEq, Repr

/-- The block, and the values of one evaluation at its ports. -/
structure State where
  /-- The block's own state, which holds nothing (10_state R10). -/
  block : Block
  /-- The input values of the evaluation the caller asks for; `none`: none is asked for. -/
  inputs : Option Instr
  /-- The output values of the evaluation just made; `none`: none was made. -/
  outputs : Option Output
  deriving DecidableEq, Repr

/-- There is nothing to reset (70_reset R135): no evaluation is asked for and none was made.
DESIGN CHOICE (log entry 1). -/
def State.reset : State where
  block := {}
  inputs := none
  outputs := none

end Sys2Proof.Machine
end

