-- ==== Sys2Proof/Machine/Ops.lean ====
section
/-! DEFINITION. The outcome of an evaluation, the values at the ports before and after it, and the one
fault as one shared operation. The block has no memory and no registers to operate on (10_state R11,
R16), no trap entry and no return (60_exceptions R127, R128). -/

namespace Sys2Proof.Machine

/-- What an evaluation is: output values, or the one fault (00_scope R9). -/
abbrev Result := Except Fault Output

/-- What an evaluation is of the block as a machine: output values and the block after it, or the one
fault. -/
abbrev Transition := Except Fault (Output × Block)

/-- The evaluation with the outcome `r`, made by the block in the state `b`: the block is left as it
is, and nothing of `b` can enter the outcome, its type having one element (10_state R10). -/
def inBlock (b : Block) : Result → Transition
  | .ok o => .ok (o, b)
  | .error f => .error f

/-- The state in which the caller asks for the evaluation `i`, or for none. It is made of nothing else:
no earlier input or output stands in it (10_state R10). -/
def presenting (i : Option Instr) : State := { block := {}, inputs := i, outputs := none }

/-- The state after an evaluation that gave `o`. It is made of nothing else: the inputs are not kept
(10_state R10, 70_reset R137). -/
def showing (o : Output) : State := { block := {}, inputs := none, outputs := some o }

/-- A transition of the block in the host's form: the block after it and the outputs. -/
def conclude : Transition → Host.Outcome State Fault Refusal
  | .ok (o, b) => .next { showing o with block := b }
  | .error f => .fault f

/-- `raise RangeFault(op, start, stop)`: the evaluation has no value (60_exceptions R122). It is no
trap: nothing is saved and control goes nowhere (R127). DEDUCED: the outcome has no next state (log
entry 6). -/
def raiseRangeFault (op : BitRangeOp) (start stop : Nat) : Result :=
  .error (.rangeFault op start stop)

/-- One bit-range evaluation: the range is checked before anything is computed
(40_bit_range_primitives R50, 60_exceptions R126), and `result` counts only on a legal range. -/
def evalRange (op : BitRangeOp) (result : Word) (start stop : Nat) : Result :=
  if legalRange start stop then .ok (.bits result (rangeFaultFlag start stop))
  else raiseRangeFault op start stop

end Sys2Proof.Machine
end

