-- ==== Sys2Proof/Machine/DebugView.lean ====
section
/-! DEFINITION. The debug view (43_debug_view): a one-way projection of an unpacked record. No
operation takes a view (R114), and no text form is part of the block (R117). -/

namespace Sys2Proof.Machine

/-- Every field zero-extended to 8 bits (R112). -/
def rView (fields : RFields) : RDebugView where
  opcode := fields.opcode.setWidth 8
  rd     := fields.rd.setWidth 8
  funct3 := fields.funct3.setWidth 8
  rs1    := fields.rs1.setWidth 8
  rs2    := fields.rs2.setWidth 8
  funct7 := fields.funct7.setWidth 8

/-- The unsigned fields zero-extended to 8 bits, the immediate narrowed to the low 16 bits of its
pattern (R113); on a record that is no output of `I_UNPACK` this is the same formula, DEDUCED (log
entry 5). -/
def iView (fields : IFields) : IDebugView where
  opcode    := fields.opcode.setWidth 8
  rd        := fields.rd.setWidth 8
  funct3    := fields.funct3.setWidth 8
  rs1       := fields.rs1.setWidth 8
  immediate := fields.immediate.setWidth 16

/-- `R_DEBUG_VIEW` (R112). -/
def rDebugView (fields : RFields) : Result :=
  .ok (.rDebugView (rView fields))

/-- The evaluation `rDebugView`, made by the block of `s`. -/
def execRDebugView (fields : RFields) (s : State) :
    Host.Outcome State Fault Refusal := conclude (inBlock s.block (rDebugView fields))

/-- `I_DEBUG_VIEW` (R113). -/
def iDebugView (fields : IFields) : Result :=
  .ok (.iDebugView (iView fields))

/-- The evaluation `iDebugView`, made by the block of `s`. -/
def execIDebugView (fields : IFields) (s : State) :
    Host.Outcome State Fault Refusal := conclude (inBlock s.block (iDebugView fields))

end Sys2Proof.Machine
end

