-- ==== Sys2Proof/Machine/RType.lean ====
section
/-! DEFINITION. The R-type codec (41_r_type_codec). First the functions on values, then the
evaluations. Every range used is one of the constant ranges of 30_encoding R32, all legal, so no
evaluation here can fault (60_exceptions R121). -/

namespace Sys2Proof.Machine

/-- The word of `R_PACK` for any integers an input port can carry (R70; 00_scope R7: a pack rule
reads only the low `width` bits of an input, so `ARGW` changes no result). -/
def rWord (funct7 rs2 rs1 funct3 rd opcode : Int) : Word :=
  packFields [(funct7, funct7Field), (rs2, rs2Field), (rs1, rs1Field), (funct3, funct3Field),
    (rd, rdField), (opcode, opcodeField)]

/-- Bits 0-6 (R72). -/
def opcodeOf (word : Word) : U7 := (readField word opcodeField).setWidth 7

/-- Bits 7-11 (R73). -/
def rdOf (word : Word) : U5 := (readField word rdField).setWidth 5

/-- Bits 12-14 (R74). -/
def funct3Of (word : Word) : U3 := (readField word funct3Field).setWidth 3

/-- Bits 15-19 (R75). -/
def rs1Of (word : Word) : U5 := (readField word rs1Field).setWidth 5

/-- Bits 20-24 (R76). -/
def rs2Of (word : Word) : U5 := (readField word rs2Field).setWidth 5

/-- Bits 25-31 (R77). -/
def funct7Of (word : Word) : U7 := (readField word funct7Field).setWidth 7

/-- The record of the six accessors (R71). -/
def rFieldsOf (word : Word) : RFields where
  opcode := opcodeOf word
  rd     := rdOf word
  funct3 := funct3Of word
  rs1    := rs1Of word
  rs2    := rs2Of word
  funct7 := funct7Of word

/-- `R_PACK` (R70): inputs of `ARGW` bits, unsigned; over-wide values are truncated silently. -/
def rPack (funct7 rs2 rs1 funct3 rd opcode : Arg) : Result :=
  .ok (.word (rWord funct7.toNat rs2.toNat rs1.toNat funct3.toNat rd.toNat opcode.toNat))

/-- The evaluation `rPack`, made by the block of `s`. -/
def execRPack (funct7 rs2 rs1 funct3 rd opcode : Arg) (s : State) :
    Host.Outcome State Fault Refusal := conclude (inBlock s.block (rPack funct7 rs2 rs1 funct3 rd opcode))

/-- `R_UNPACK` (R71). -/
def rUnpack (word : Word) : Result :=
  .ok (.rFields (rFieldsOf word))

/-- The evaluation `rUnpack`, made by the block of `s`. -/
def execRUnpack (word : Word) (s : State) :
    Host.Outcome State Fault Refusal := conclude (inBlock s.block (rUnpack word))

/-- `R_OPCODE` (R72). -/
def rOpcode (word : Word) : Result :=
  .ok (.opcode (opcodeOf word))

/-- The evaluation `rOpcode`, made by the block of `s`. -/
def execROpcode (word : Word) (s : State) :
    Host.Outcome State Fault Refusal := conclude (inBlock s.block (rOpcode word))

/-- `R_RD` (R73). -/
def rRd (word : Word) : Result :=
  .ok (.rd (rdOf word))

/-- The evaluation `rRd`, made by the block of `s`. -/
def execRRd (word : Word) (s : State) :
    Host.Outcome State Fault Refusal := conclude (inBlock s.block (rRd word))

/-- `R_FUNCT3` (R74). -/
def rFunct3 (word : Word) : Result :=
  .ok (.funct3 (funct3Of word))

/-- The evaluation `rFunct3`, made by the block of `s`. -/
def execRFunct3 (word : Word) (s : State) :
    Host.Outcome State Fault Refusal := conclude (inBlock s.block (rFunct3 word))

/-- `R_RS1` (R75). -/
def rRs1 (word : Word) : Result :=
  .ok (.rs1 (rs1Of word))

/-- The evaluation `rRs1`, made by the block of `s`. -/
def execRRs1 (word : Word) (s : State) :
    Host.Outcome State Fault Refusal := conclude (inBlock s.block (rRs1 word))

/-- `R_RS2` (R76). -/
def rRs2 (word : Word) : Result :=
  .ok (.rs2 (rs2Of word))

/-- The evaluation `rRs2`, made by the block of `s`. -/
def execRRs2 (word : Word) (s : State) :
    Host.Outcome State Fault Refusal := conclude (inBlock s.block (rRs2 word))

/-- `R_FUNCT7` (R77). -/
def rFunct7 (word : Word) : Result :=
  .ok (.funct7 (funct7Of word))

/-- The evaluation `rFunct7`, made by the block of `s`. -/
def execRFunct7 (word : Word) (s : State) :
    Host.Outcome State Fault Refusal := conclude (inBlock s.block (rFunct7 word))

end Sys2Proof.Machine
end

