-- ==== Sys2Proof/Machine/IType.lean ====
section
/-! DEFINITION. The I-type codec (42_i_type_codec). `opcode`, `rd`, `funct3` and `rs1` are the same
fields at the same places as in the R-type layout and are "extracted exactly as in the R-type
codec" (30_encoding R35), so their value functions are those of Machine/RType.lean. -/

namespace Sys2Proof.Machine

/-- The word of `I_PACK` for any integers an input port can carry (R90, R97). -/
def iWord (immediate rs1 funct3 rd opcode : Int) : Word :=
  packFields [((raw12 immediate : Int), immediateField), (rs1, rs1Field), (funct3, funct3Field),
    (rd, rdField), (opcode, opcodeField)]

/-- The sign-extended immediate as its 32-bit pattern: the twelve bits extracted, then bits 12-31
OF THE EXTRACTED VALUE forced to the field's top bit (R96, C3). -/
def immediateOf (word : Word) : S32 := signFill (readField word immediateField) 11

/-- The record of the five accessors (R91). -/
def iFieldsOf (word : Word) : IFields where
  opcode    := opcodeOf word
  rd        := rdOf word
  funct3    := funct3Of word
  rs1       := rs1Of word
  immediate := immediateOf word

/-- `I_PACK` (R90): a signed immediate and four unsigned inputs, truncated silently. -/
def iPack (immediate : SArg) (rs1 funct3 rd opcode : Arg) : Result :=
  .ok (.word (iWord immediate.toInt rs1.toNat funct3.toNat rd.toNat opcode.toNat))

/-- The evaluation `iPack`, made by the block of `s`. -/
def execIPack (immediate : SArg) (rs1 funct3 rd opcode : Arg) (s : State) :
    Host.Outcome State Fault Refusal := conclude (inBlock s.block (iPack immediate rs1 funct3 rd opcode))

/-- `I_UNPACK` (R91). -/
def iUnpack (word : Word) : Result :=
  .ok (.iFields (iFieldsOf word))

/-- The evaluation `iUnpack`, made by the block of `s`. -/
def execIUnpack (word : Word) (s : State) :
    Host.Outcome State Fault Refusal := conclude (inBlock s.block (iUnpack word))

/-- `I_OPCODE` (R92). -/
def iOpcode (word : Word) : Result :=
  .ok (.opcode (opcodeOf word))

/-- The evaluation `iOpcode`, made by the block of `s`. -/
def execIOpcode (word : Word) (s : State) :
    Host.Outcome State Fault Refusal := conclude (inBlock s.block (iOpcode word))

/-- `I_RD` (R93). -/
def iRd (word : Word) : Result :=
  .ok (.rd (rdOf word))

/-- The evaluation `iRd`, made by the block of `s`. -/
def execIRd (word : Word) (s : State) :
    Host.Outcome State Fault Refusal := conclude (inBlock s.block (iRd word))

/-- `I_FUNCT3` (R94). -/
def iFunct3 (word : Word) : Result :=
  .ok (.funct3 (funct3Of word))

/-- The evaluation `iFunct3`, made by the block of `s`. -/
def execIFunct3 (word : Word) (s : State) :
    Host.Outcome State Fault Refusal := conclude (inBlock s.block (iFunct3 word))

/-- `I_RS1` (R95). -/
def iRs1 (word : Word) : Result :=
  .ok (.rs1 (rs1Of word))

/-- The evaluation `iRs1`, made by the block of `s`. -/
def execIRs1 (word : Word) (s : State) :
    Host.Outcome State Fault Refusal := conclude (inBlock s.block (iRs1 word))

/-- `I_IMMEDIATE` (R96). -/
def iImmediate (word : Word) : Result :=
  .ok (.immediate (immediateOf word))

/-- The evaluation `iImmediate`, made by the block of `s`. -/
def execIImmediate (word : Word) (s : State) :
    Host.Outcome State Fault Refusal := conclude (inBlock s.block (iImmediate word))

end Sys2Proof.Machine
end

