-- ==== Sys2Proof/Machine/Primitive.lean ====
section
/-! DEFINITION. The bit-range primitive (40_bit_range_primitives). -/

namespace Sys2Proof.Machine

/-- `GET_BITS(word, start, stop)` (R53). -/
def getBits (word : Word) (start stop : Pos) : Result :=
  evalRange .getBits (extractBits word start.toNat stop.toNat) start.toNat stop.toNat

/-- The evaluation `getBits`, made by the block of `s`. -/
def execGetBits (word : Word) (start stop : Pos) (s : State) :
    Host.Outcome State Fault Refusal := conclude (inBlock s.block (getBits word start stop))

/-- `SET_BITS_TO_ONE(word, start, stop)` (R54). -/
def setBitsToOne (word : Word) (start stop : Pos) : Result :=
  evalRange .setBitsToOne (forceOnes word start.toNat stop.toNat) start.toNat stop.toNat

/-- The evaluation `setBitsToOne`, made by the block of `s`. -/
def execSetBitsToOne (word : Word) (start stop : Pos) (s : State) :
    Host.Outcome State Fault Refusal := conclude (inBlock s.block (setBitsToOne word start stop))

/-- `SET_BITS_TO_ZERO(word, start, stop)` (R55). -/
def setBitsToZero (word : Word) (start stop : Pos) : Result :=
  evalRange .setBitsToZero (forceZeros word start.toNat stop.toNat) start.toNat stop.toNat

/-- The evaluation `setBitsToZero`, made by the block of `s`. -/
def execSetBitsToZero (word : Word) (start stop : Pos) (s : State) :
    Host.Outcome State Fault Refusal := conclude (inBlock s.block (setBitsToZero word start stop))

end Sys2Proof.Machine
end

