-- ==== Sys2Proof/Machine/Dispatch.lean ====
section
/-! DEFINITION. The meaning of every operation of spec/opcode_table.json: one arm per constructor. -/

namespace Sys2Proof.Machine

/-- One evaluation of `i` (00_scope R9). -/
def exec (i : Instr) (s : State) : Host.Outcome State Fault Refusal :=
  match i with
  | .getBits word start stop => Sys2Proof.Machine.execGetBits word start stop s
  | .setBitsToOne word start stop => Sys2Proof.Machine.execSetBitsToOne word start stop s
  | .setBitsToZero word start stop => Sys2Proof.Machine.execSetBitsToZero word start stop s
  | .rPack funct7 rs2 rs1 funct3 rd opcode => Sys2Proof.Machine.execRPack funct7 rs2 rs1 funct3 rd opcode s
  | .rUnpack word => Sys2Proof.Machine.execRUnpack word s
  | .rOpcode word => Sys2Proof.Machine.execROpcode word s
  | .rRd word => Sys2Proof.Machine.execRRd word s
  | .rFunct3 word => Sys2Proof.Machine.execRFunct3 word s
  | .rRs1 word => Sys2Proof.Machine.execRRs1 word s
  | .rRs2 word => Sys2Proof.Machine.execRRs2 word s
  | .rFunct7 word => Sys2Proof.Machine.execRFunct7 word s
  | .iPack immediate rs1 funct3 rd opcode => Sys2Proof.Machine.execIPack immediate rs1 funct3 rd opcode s
  | .iUnpack word => Sys2Proof.Machine.execIUnpack word s
  | .iOpcode word => Sys2Proof.Machine.execIOpcode word s
  | .iRd word => Sys2Proof.Machine.execIRd word s
  | .iFunct3 word => Sys2Proof.Machine.execIFunct3 word s
  | .iRs1 word => Sys2Proof.Machine.execIRs1 word s
  | .iImmediate word => Sys2Proof.Machine.execIImmediate word s
  | .rDebugView fields => Sys2Proof.Machine.execRDebugView fields s
  | .iDebugView fields => Sys2Proof.Machine.execIDebugView fields s

end Sys2Proof.Machine
end

