-- ==== Sys2Proof/WellFormed.lean ====
section
/-! DEFINITION. Which terms of `Instr` are evaluations a caller can present. The port widths are in
the types; the one relation they do not carry is the range of an unpacked immediate. A bit range
with `start > stop` IS well formed: it can be presented, and its outcome is `RangeFault`. -/

namespace Sys2Proof

/-- An `IFields` record is an output of `I_UNPACK`, so its immediate lies in -2048..2047
(10_state R18, 42_i_type_codec R96). DEDUCED (log entry 5). -/
def IFields.wf (fields : IFields) : Bool :=
  decide (-2048 ≤ fields.immediate.toInt) && decide (fields.immediate.toInt ≤ 2047)

/-- The check of an evaluation. -/
def Instr.wf : Instr → Bool
  | .getBits _ _ _       => true
  | .setBitsToOne _ _ _  => true
  | .setBitsToZero _ _ _ => true
  | .rPack _ _ _ _ _ _   => true
  | .rUnpack _           => true
  | .rOpcode _           => true
  | .rRd _               => true
  | .rFunct3 _           => true
  | .rRs1 _              => true
  | .rRs2 _              => true
  | .rFunct7 _           => true
  | .iPack _ _ _ _ _     => true
  | .iUnpack _           => true
  | .iOpcode _           => true
  | .iRd _               => true
  | .iFunct3 _           => true
  | .iRs1 _              => true
  | .iImmediate _        => true
  | .rDebugView _        => true
  | .iDebugView fields   => fields.wf

/-- `Instr.wf` as a proposition. -/
abbrev Instr.WellFormed (i : Instr) : Prop := i.wf = true

end Sys2Proof
end

