-- ==== Sys2Proof/Decode.lean ====
section
/-! DEFINITION. The call frame: the model's own serialisation of one evaluation, OUTSIDE the block.
DESIGN CHOICE (log entry 2): the block selects no operation by a bit pattern and has no
operation-select code (D2, N13), so nothing here is a claim about the block. A frame is seven
32-bit words: six port words in the argument order of 30_encoding R42 (fields of a record in the
order of opcode_table.json's "inputs"), unused ports 0, then the unit number, the row of
spec/opcode_table.json counted from 0. The word layouts that ARE the block's (R32, R33) are in
Machine/Operands.lean. -/

namespace Sys2Proof

/-- Why a frame is refused. -/
inductive DecodeError where
  /-- The frame has not seven words. -/
  | frameLength (words : Nat)
  /-- The unit number names no row of the table. -/
  | unknownUnit (unit : Nat)
  /-- A port word the unit does not have is not 0. -/
  | unusedPort
  /-- A port word does not fit the port's width. -/
  | portTooWide (width : Nat)
  /-- The record given to `I_DEBUG_VIEW` is no output of `I_UNPACK`. -/
  | immediateOutOfRange
  deriving DecidableEq, Repr

/-- A port word at the port's width, refused where it does not fit. -/
def narrowPort (width : Nat) (port : Word) : Except DecodeError (BitVec width) :=
  if port.toNat < 2 ^ width then .ok (port.setWidth width) else .error (.portTooWide width)

/-- The result `answer`, refused where an unused port is driven. -/
def withUnused (ports : List Word) (answer : Except DecodeError Instr) : Except DecodeError Instr :=
  if ports.all (fun p => p == 0) then answer else .error .unusedPort

/-- The three bit-range units: `word`, `start`, `end`. -/
def decodeRange (op : Word → Pos → Pos → Instr) (word start stop : Word) :
    Except DecodeError Instr := do
  let start ← narrowPort 5 start
  let stop ← narrowPort 5 stop
  return op word start stop

/-- The record of `R_DEBUG_VIEW`. -/
def decodeRFields (funct7 rs2 rs1 funct3 rd opcode : Word) : Except DecodeError Instr := do
  let funct7 ← narrowPort 7 funct7
  let rs2 ← narrowPort 5 rs2
  let rs1 ← narrowPort 5 rs1
  let funct3 ← narrowPort 3 funct3
  let rd ← narrowPort 5 rd
  let opcode ← narrowPort 7 opcode
  return .rDebugView ⟨opcode, rd, funct3, rs1, rs2, funct7⟩

/-- The record of `I_DEBUG_VIEW`. -/
def decodeIFields (immediate rs1 funct3 rd opcode : Word) : Except DecodeError Instr := do
  let rs1 ← narrowPort 5 rs1
  let funct3 ← narrowPort 3 funct3
  let rd ← narrowPort 5 rd
  let opcode ← narrowPort 7 opcode
  let fields : IFields := ⟨opcode, rd, funct3, rs1, immediate⟩
  if fields.wf then return .iDebugView fields else throw .immediateOutOfRange

/-- The evaluation of unit `unit` on six port words. -/
def decodeUnit (unit : Nat) (p0 p1 p2 p3 p4 p5 : Word) : Except DecodeError Instr :=
  match unit with
  | 0  => withUnused [p3, p4, p5] (decodeRange .getBits p0 p1 p2)
  | 1  => withUnused [p3, p4, p5] (decodeRange .setBitsToOne p0 p1 p2)
  | 2  => withUnused [p3, p4, p5] (decodeRange .setBitsToZero p0 p1 p2)
  | 3  => .ok (.rPack p0 p1 p2 p3 p4 p5)
  | 4  => withUnused [p1, p2, p3, p4, p5] (.ok (.rUnpack p0))
  | 5  => withUnused [p1, p2, p3, p4, p5] (.ok (.rOpcode p0))
  | 6  => withUnused [p1, p2, p3, p4, p5] (.ok (.rRd p0))
  | 7  => withUnused [p1, p2, p3, p4, p5] (.ok (.rFunct3 p0))
  | 8  => withUnused [p1, p2, p3, p4, p5] (.ok (.rRs1 p0))
  | 9  => withUnused [p1, p2, p3, p4, p5] (.ok (.rRs2 p0))
  | 10 => withUnused [p1, p2, p3, p4, p5] (.ok (.rFunct7 p0))
  | 11 => withUnused [p5] (.ok (.iPack p0 p1 p2 p3 p4))
  | 12 => withUnused [p1, p2, p3, p4, p5] (.ok (.iUnpack p0))
  | 13 => withUnused [p1, p2, p3, p4, p5] (.ok (.iOpcode p0))
  | 14 => withUnused [p1, p2, p3, p4, p5] (.ok (.iRd p0))
  | 15 => withUnused [p1, p2, p3, p4, p5] (.ok (.iFunct3 p0))
  | 16 => withUnused [p1, p2, p3, p4, p5] (.ok (.iRs1 p0))
  | 17 => withUnused [p1, p2, p3, p4, p5] (.ok (.iImmediate p0))
  | 18 => decodeRFields p0 p1 p2 p3 p4 p5
  | 19 => withUnused [p5] (decodeIFields p0 p1 p2 p3 p4)
  | n  => .error (.unknownUnit n)

/-- Reading a frame: total on any list of words. -/
def decode : List Word → Except DecodeError Instr
  | [p0, p1, p2, p3, p4, p5, unit] => decodeUnit unit.toNat p0 p1 p2 p3 p4 p5
  | ws => .error (.frameLength ws.length)

/-- The frame of an evaluation. -/
def encode : Instr → List Word
  | .getBits word start stop => [word, start.setWidth 32, stop.setWidth 32, 0, 0, 0, 0]
  | .setBitsToOne word start stop => [word, start.setWidth 32, stop.setWidth 32, 0, 0, 0, 1]
  | .setBitsToZero word start stop => [word, start.setWidth 32, stop.setWidth 32, 0, 0, 0, 2]
  | .rPack funct7 rs2 rs1 funct3 rd opcode => [funct7, rs2, rs1, funct3, rd, opcode, 3]
  | .rUnpack word => [word, 0, 0, 0, 0, 0, 4]
  | .rOpcode word => [word, 0, 0, 0, 0, 0, 5]
  | .rRd word => [word, 0, 0, 0, 0, 0, 6]
  | .rFunct3 word => [word, 0, 0, 0, 0, 0, 7]
  | .rRs1 word => [word, 0, 0, 0, 0, 0, 8]
  | .rRs2 word => [word, 0, 0, 0, 0, 0, 9]
  | .rFunct7 word => [word, 0, 0, 0, 0, 0, 10]
  | .iPack immediate rs1 funct3 rd opcode => [immediate, rs1, funct3, rd, opcode, 0, 11]
  | .iUnpack word => [word, 0, 0, 0, 0, 0, 12]
  | .iOpcode word => [word, 0, 0, 0, 0, 0, 13]
  | .iRd word => [word, 0, 0, 0, 0, 0, 14]
  | .iFunct3 word => [word, 0, 0, 0, 0, 0, 15]
  | .iRs1 word => [word, 0, 0, 0, 0, 0, 16]
  | .iImmediate word => [word, 0, 0, 0, 0, 0, 17]
  | .rDebugView f =>
    [f.funct7.setWidth 32, f.rs2.setWidth 32, f.rs1.setWidth 32, f.funct3.setWidth 32,
      f.rd.setWidth 32, f.opcode.setWidth 32, 18]
  | .iDebugView f =>
    [f.immediate, f.rs1.setWidth 32, f.funct3.setWidth 32, f.rd.setWidth 32,
      f.opcode.setWidth 32, 0, 19]

/-- The seven-word frame whose bits are the low `nbits` bits of `w`, first word least significant,
every bit above `nbits` zero. -/
def tableFrame (nbits w : Nat) : List Word :=
  (List.range 7).map fun k => BitVec.ofNat 32 ((w % 2 ^ nbits) >>> (32 * k))

/-- The evaluation read from the bits of a table row. The table gives a row 32 bits or none and no
unit number, so the words above are zero and every row reads as unit 0 (log entry 2). -/
def decodeTableWord (nbits w : Nat) : Option Instr :=
  (decode (tableFrame nbits w)).toOption

end Sys2Proof
end

