-- ==== Sys2Proof/Machine/Present.lean ====
section
/-! DEFINITION. Presenting an evaluation. The block fetches nothing (20_memory R28); the caller presents
an evaluation (10_state R19), and a frame is the model's own way to write one down (Decode.lean, log
entry 2). Whatever is presented, nothing of the state before is kept (10_state R10). -/

namespace Sys2Proof.Machine

/-- The caller presents the evaluation `i`. -/
def State.present (_ : State) (i : Instr) : State := presenting (some i)

/-- The evaluation `frame` stands for is presented; where the frame is refused, none is. -/
def State.presentFrame (_ : State) (frame : List Word) : State :=
  presenting (decode frame).toOption

/-- The evaluation a table row's bits stand for is presented. -/
def State.presentTableWord (s : State) (nbits w : Nat) : State :=
  s.presentFrame (tableFrame nbits w)

end Sys2Proof.Machine
end

