-- ==== Sys2Proof/Machine/Step.lean ====
section
/-! DEFINITION. One step: one evaluation of what the caller presents. -/

namespace Sys2Proof.Machine

/-- The block of `s` evaluates the presented operation on its input values (10_state R19), and of the state
before nothing is left but the output values (10_state R10, 70_reset R137). With nothing presented there
is nothing to evaluate and no output is shown (70_reset R135, R136). DESIGN CHOICE (log entry 3). -/
def step (s : State) : Host.Outcome State Fault Refusal :=
  match s.inputs with
  | some i => exec i s
  | none => .next State.reset

/-- `s` with the evaluation of a table row's bits presented, so that the very next step makes it. -/
def State.withFetchWord (s : State) (nbits w : Nat) : State := s.presentTableWord nbits w

end Sys2Proof.Machine
end

