-- ==== Sys2Proof/Machine/Evaluate.lean ====
section
/-! DEFINITION. The block as the spec has it: one total function per operation plus one fault outcome,
no step and no state (00_scope R9, 10_state R10). `exec` has the block of its state
make them. -/

namespace Sys2Proof.Machine

/-- The outcome of one evaluation, a function of its input values and of nothing else
(10_state R10). -/
def evaluate : Instr → Result
  | .getBits word start stop => getBits word start stop
  | .setBitsToOne word start stop => setBitsToOne word start stop
  | .setBitsToZero word start stop => setBitsToZero word start stop
  | .rPack funct7 rs2 rs1 funct3 rd opcode => rPack funct7 rs2 rs1 funct3 rd opcode
  | .rUnpack word => rUnpack word
  | .rOpcode word => rOpcode word
  | .rRd word => rRd word
  | .rFunct3 word => rFunct3 word
  | .rRs1 word => rRs1 word
  | .rRs2 word => rRs2 word
  | .rFunct7 word => rFunct7 word
  | .iPack immediate rs1 funct3 rd opcode => iPack immediate rs1 funct3 rd opcode
  | .iUnpack word => iUnpack word
  | .iOpcode word => iOpcode word
  | .iRd word => iRd word
  | .iFunct3 word => iFunct3 word
  | .iRs1 word => iRs1 word
  | .iImmediate word => iImmediate word
  | .rDebugView fields => rDebugView fields
  | .iDebugView fields => iDebugView fields

/-- The block as a machine with a state, inputs and outputs, for a framework that demands a state type:
that type is `Block`, the one-element type, and an evaluation leaves it as it is (10_state R10).
Every arm of `exec`, and so `step`, makes this transition from the block of its state. -/
def evaluateIn (b : Block) (i : Instr) : Transition := inBlock b (evaluate i)

end Sys2Proof.Machine
end

