-- ==== Sys2Proof/Safety.lean ====
section
/-! DEFINITION. The terms claims are made in: which evaluations have a value, which states are
coherent, and a sequence of evaluations made by a caller (70_reset R137). -/

namespace Sys2Proof.Machine

/-- The duty of the caller of a bit-range operation (70_reset R138); the other operations ask none. -/
def legalCall : Instr → Bool
  | .getBits _ start stop       => decide (start ≤ stop)
  | .setBitsToOne _ start stop  => decide (start ≤ stop)
  | .setBitsToZero _ start stop => decide (start ≤ stop)
  | .rPack _ _ _ _ _ _   => true
  | .rUnpack _           => true
  | .rOpcode _           => true
  | .rRd _               => true
  | .rFunct3 _           => true
  | .rRs1 _              => true
  | .rRs2 _              => true
  | .rFunct7 _           => true
  | .iPack _ _ _ _ _     => true
  | .iUnpack _           => true
  | .iOpcode _           => true
  | .iRd _               => true
  | .iFunct3 _           => true
  | .iRs1 _              => true
  | .iImmediate _        => true
  | .rDebugView _        => true
  | .iDebugView _        => true

/-- The output ports a unit has are the ones `o` shows (10_state R19). -/
def Output.isOf (o : Output) (i : Instr) : Bool :=
  match i, o with
  | .getBits _ _ _, .bits _ _       => true
  | .setBitsToOne _ _ _, .bits _ _  => true
  | .setBitsToZero _ _ _, .bits _ _ => true
  | .rPack _ _ _ _ _ _, .word _     => true
  | .rUnpack _, .rFields _          => true
  | .rOpcode _, .opcode _           => true
  | .rRd _, .rd _                   => true
  | .rFunct3 _, .funct3 _           => true
  | .rRs1 _, .rs1 _                 => true
  | .rRs2 _, .rs2 _                 => true
  | .rFunct7 _, .funct7 _           => true
  | .iPack _ _ _ _ _, .word _       => true
  | .iUnpack _, .iFields _          => true
  | .iOpcode _, .opcode _           => true
  | .iRd _, .rd _                   => true
  | .iFunct3 _, .funct3 _           => true
  | .iRs1 _, .rs1 _                 => true
  | .iImmediate _, .immediate _     => true
  | .rDebugView _, .rDebugView _    => true
  | .iDebugView _, .iDebugView _    => true
  | _, _ => false

/-- The output values lie in the ranges the spec gives them: a decoded immediate in -2048..2047
(42_i_type_codec R96), a view's numbers in the ranges of its format's fields (43_debug_view R112,
R113), `range_fault` 0 beside a result (60_exceptions R122). -/
def Output.inRange : Output → Bool
  | .bits _ rangeFault => rangeFault == 0
  | .word _            => true
  | .rFields _         => true
  | .iFields fields    => fields.wf
  | .opcode _          => true
  | .rd _              => true
  | .funct3 _          => true
  | .rs1 _             => true
  | .rs2 _             => true
  | .funct7 _          => true
  | .immediate v       => decide (-2048 ≤ v.toInt) && decide (v.toInt ≤ 2047)
  | .rDebugView v      =>
    decide (v.opcode.toNat ≤ 127) && decide (v.rd.toNat ≤ 31) && decide (v.funct3.toNat ≤ 7) &&
      decide (v.rs1.toNat ≤ 31) && decide (v.rs2.toNat ≤ 31) && decide (v.funct7.toNat ≤ 127)
  | .iDebugView v      =>
    decide (v.opcode.toNat ≤ 127) && decide (v.rd.toNat ≤ 31) && decide (v.funct3.toNat ≤ 7) &&
      decide (v.rs1.toNat ≤ 31) && decide (-2048 ≤ v.immediate.toInt) &&
      decide (v.immediate.toInt ≤ 2047)

/-- What is presented is an evaluation a caller can present, what is shown lies in the ranges of its
output ports, and never do both stand in one state: what is shown keeps no input beside it. -/
abbrev State.Coherent (s : State) : Prop :=
  s.inputs.all Instr.wf = true ∧ s.outputs.all Output.inRange = true ∧
    (s.inputs = none ∨ s.outputs = none)

/-- A caller packs an unpacked R-type record again, each field in its own input (41_r_type_codec R79). -/
def repackR (f : RFields) : Instr :=
  .rPack (f.funct7.setWidth 32) (f.rs2.setWidth 32) (f.rs1.setWidth 32) (f.funct3.setWidth 32)
    (f.rd.setWidth 32) (f.opcode.setWidth 32)

/-- A caller packs an unpacked I-type record again (42_i_type_codec R100). -/
def repackI (f : IFields) : Instr :=
  .iPack f.immediate (f.rs1.setWidth 32) (f.funct3.setWidth 32) (f.rd.setWidth 32)
    (f.opcode.setWidth 32)

/-- The outputs an outcome shows, if it is a next state. -/
def shown : Host.Outcome State Fault Refusal → Option Output
  | .next s => s.outputs
  | .fault _ => none
  | .refused _ => none

/-- The fault an outcome is, if it is one. -/
def faultOf : Host.Outcome State Fault Refusal → Option Fault
  | .next _ => none
  | .fault f => some f
  | .refused _ => none

/-- A straight-line sequence of evaluations made by a caller, with the outputs each one shows. Once
one evaluation faults, the sequence has no result (60_exceptions R123, 70_reset R137). -/
def evaluateAll : List Instr → State → Host.Outcome (List (Option Output)) Fault Refusal
  | [], _ => .next []
  | i :: rest, s =>
    match step (s.present i) with
    | .next t =>
      match evaluateAll rest t with
      | .next os => .next (t.outputs :: os)
      | .fault f => .fault f
      | .refused r => .refused r
    | .fault f => .fault f
    | .refused r => .refused r

end Sys2Proof.Machine
end

