-- ==== Sys2Proof/Certificates/Slice0/Obligations.lean ====
section
/-! DEFINITION. The statements for the provers, from the numbered rules of spec/. Each gives the
values in arithmetic or bit by bit, so that it is held against the rule and not against the text of
the meaning. `showing o` is the next state with the values `o` at the output ports and nothing else in
it; every statement with it holds in every state `s` and so says that nothing of `s` is left. -/

open Sys2Proof Sys2Proof.Machine

/-! ## The bit-range primitive -/

/-- R53: the result of `GET_BITS` as a quotient and remainder and bit by bit, and its fault. -/
def Obligations.GetBitsAnswersTheBitRange : Prop :=
  ∀ (word : Word) (start stop : Pos) (s : State),
    (start ≤ stop →
      let result : Word :=
        BitVec.ofNat 32 (word.toNat / 2 ^ start.toNat % 2 ^ (stop.toNat - start.toNat + 1))
      exec (.getBits word start stop) s = .next (showing (.bits result 0)) ∧
        ∀ k < 32, result.getLsbD k =
          (decide (k ≤ stop.toNat - start.toNat) && word.getLsbD (start.toNat + k))) ∧
    (stop < start →
      exec (.getBits word start stop) s =
        .fault (.rangeFault .getBits start.toNat stop.toNat))

/-- R54: bits in the range are 1, the others are the word's; and the fault. -/
def Obligations.SetBitsToOneForcesTheRange : Prop :=
  ∀ (word : Word) (start stop : Pos) (s : State),
    (start ≤ stop →
      ∃ result : Word,
        exec (.setBitsToOne word start stop) s = .next (showing (.bits result 0)) ∧
        result = word ||| BitVec.ofNat 32 (2 ^ (stop.toNat + 1) - 2 ^ start.toNat) ∧
        ∀ k < 32, result.getLsbD k =
          if start.toNat ≤ k ∧ k ≤ stop.toNat then true else word.getLsbD k) ∧
    (stop < start →
      exec (.setBitsToOne word start stop) s =
        .fault (.rangeFault .setBitsToOne start.toNat stop.toNat))

/-- R55: bits in the range are 0, the others are the word's; and the fault. -/
def Obligations.SetBitsToZeroClearsTheRange : Prop :=
  ∀ (word : Word) (start stop : Pos) (s : State),
    (start ≤ stop →
      ∃ result : Word,
        exec (.setBitsToZero word start stop) s = .next (showing (.bits result 0)) ∧
        result = word &&& ~~~ BitVec.ofNat 32 (2 ^ (stop.toNat + 1) - 2 ^ start.toNat) ∧
        ∀ k < 32, result.getLsbD k =
          if start.toNat ≤ k ∧ k ≤ stop.toNat then false else word.getLsbD k) ∧
    (stop < start →
      exec (.setBitsToZero word start stop) s =
        .fault (.rangeFault .setBitsToZero start.toNat stop.toNat))

/-- R120, R122: with positions of unbounded type, a bit-range evaluation faults exactly outside
`0 ≤ start ≤ stop ≤ 31`, and then has no value to show; on a legal range `range_fault` is 0. -/
def Obligations.RangeFaultExactlyOnIllegalRanges : Prop :=
  ∀ (b : Block) (op : BitRangeOp) (result : Word) (start stop : Nat),
    (start ≤ stop ∧ stop ≤ 31 → evalRange op result start stop = .ok (.bits result 0)) ∧
    (¬ (start ≤ stop ∧ stop ≤ 31) →
      evalRange op result start stop = .error (.rangeFault op start stop) ∧
        shown (conclude (inBlock b (evalRange op result start stop))) = none)

/-- R121: only the three bit-range operations fault, and only on a range with `stop < start`. -/
def Obligations.OnlyBitRangeOperationsFault : Prop :=
  ∀ (i : Instr) (s : State) (f : Fault), exec i s = .fault f →
    ∃ (word : Word) (start stop : Pos), stop < start ∧
      ((i = .getBits word start stop ∧ f = .rangeFault .getBits start.toNat stop.toNat) ∨
       (i = .setBitsToOne word start stop ∧
          f = .rangeFault .setBitsToOne start.toNat stop.toNat) ∨
       (i = .setBitsToZero word start stop ∧
          f = .rangeFault .setBitsToZero start.toNat stop.toNat))

/-- R123: `range_fault` is 1 exactly when `start > stop`, whatever the word and the state; once one
evaluation of a chain faults the chain has no result; a fault leaves the next evaluation
unaffected, since no state holds it. -/
def Obligations.RangeFaultIsCombinationalAndCarriedForward : Prop :=
  (∀ start stop : Pos, rangeFaultFlag start.toNat stop.toNat = 1 ↔ stop < start) ∧
  (∀ (word word' : Word) (start stop : Pos) (s s' : State),
    faultOf (exec (.getBits word start stop) s) =
      faultOf (exec (.getBits word' start stop) s') ∧
    faultOf (exec (.setBitsToOne word start stop) s) =
      faultOf (exec (.setBitsToOne word' start stop) s') ∧
    faultOf (exec (.setBitsToZero word start stop) s) =
      faultOf (exec (.setBitsToZero word' start stop) s')) ∧
  (∀ (before after : List Instr) (i : Instr) (s : State) (f : Fault),
    (∀ j ∈ before, legalCall j = true) → exec i State.reset = .fault f →
      evaluateAll (before ++ i :: after) s = .fault f)

/-- R51, R52: the values of the two masks on unbounded integers, the full width included. -/
def Obligations.MasksAreTheSpecifiedPatterns : Prop :=
  (∀ n ≤ 32, (mask n).toNat = 2 ^ n - 1) ∧
  (∀ start stop : Nat, start ≤ stop → stop ≤ 31 →
    (rangeMask start stop).toNat = 2 ^ (stop + 1) - 2 ^ start ∧
    rangeMask start stop = mask (stop - start + 1) <<< start ∧
    ∀ k < 32, (rangeMask start stop).getLsbD k = decide (start ≤ k ∧ k ≤ stop))

/-- R58: `GET_BITS` is the shift-and-mask computation, and the full-width range answers the word. -/
def Obligations.GetBitsIsShiftAndMask : Prop :=
  ∀ (word : Word) (s : State),
    (∀ start stop : Pos, start ≤ stop →
      exec (.getBits word start stop) s = .next (showing (.bits
          (BitVec.ofNat 32 ((word.toNat >>> start.toNat) &&&
            (2 ^ (stop.toNat - start.toNat + 1) - 1))) 0))) ∧
    exec (.getBits word 0 31) s = .next (showing (.bits word 0))

/-- R142: the three full-width tests that find a mask built by a shift by 32. -/
def Obligations.FullWidthRangeCoversTheWord : Prop :=
  ∀ (word : Word) (s : State),
    exec (.getBits word 0 31) s = .next (showing (.bits word 0)) ∧
    exec (.setBitsToOne word 0 31) s = .next (showing (.bits 0xFFFFFFFF 0)) ∧
    exec (.setBitsToZero word 0 31) s = .next (showing (.bits 0 0))

/-- R59: forcing a range twice is forcing it once. -/
def Obligations.ForcingIsIdempotent : Prop :=
  ∀ (word : Word) (start stop : Pos) (s s' : State), start ≤ stop →
    (∃ once : Word,
      exec (.setBitsToOne word start stop) s = .next (showing (.bits once 0)) ∧
      exec (.setBitsToOne once start stop) s' = .next (showing (.bits once 0))) ∧
    (∃ once : Word,
      exec (.setBitsToZero word start stop) s = .next (showing (.bits once 0)) ∧
      exec (.setBitsToZero once start stop) s' = .next (showing (.bits once 0)))

/-- R60: the ten laws of the bit-range values, in the rule's order. -/
def Obligations.BitRangeLaws : Prop :=
  ∀ (w : Word) (s e : Nat), s ≤ e → e ≤ 31 →
    extractBits (forceOnes w s e) s e = mask (e - s + 1) ∧
    extractBits (forceZeros w s e) s e = 0 ∧
    (∀ a b : Nat, a ≤ b → b ≤ 31 → (b < s ∨ e < a) →
      extractBits (forceOnes w s e) a b = extractBits w a b ∧
      extractBits (forceZeros w s e) a b = extractBits w a b) ∧
    (forceZeros (forceOnes w s e) s e = forceZeros w s e ∧
      forceOnes (forceZeros w s e) s e = forceOnes w s e) ∧
    (∀ a b : Nat, a ≤ b → b ≤ 31 → (b < s ∨ e < a) →
      forceOnes (forceOnes w s e) a b = forceOnes (forceOnes w a b) s e ∧
      forceZeros (forceZeros w s e) a b = forceZeros (forceZeros w a b) s e ∧
      forceOnes (forceZeros w s e) a b = forceZeros (forceOnes w a b) s e) ∧
    w = forceZeros w s e ||| (extractBits w s e <<< s) ∧
    (∀ m : Nat, s ≤ m → m < e →
      (extractBits w s e).toNat =
        (extractBits w (m + 1) e).toNat * 2 ^ (m - s + 1) + (extractBits w s m).toNat) ∧
    (∀ a b : Nat, a ≤ b → b ≤ e - s →
      extractBits (extractBits w s e) a b = extractBits w (s + a) (s + b)) ∧
    ((extractBits w s e).toNat ≤ (mask (e - s + 1)).toNat ∧
      (mask (e - s + 1)).toNat < 2 ^ (e - s + 1)) ∧
    forceZeros w s e = ~~~ forceOnes (~~~ w) s e

/-- R57: `SIGN_FILL` copies bit `top` into every higher bit and leaves the rest, and on a value with
nothing above `top` it is the sign extension of the field. -/
def Obligations.SignFillCopiesTheTopBit : Prop :=
  ∀ (v : Word) (top : Nat), top ≤ 30 →
    (∀ k < 32, (signFill v top).getLsbD k = if k ≤ top then v.getLsbD k else v.getLsbD top) ∧
    (v.toNat < 2 ^ (top + 1) →
      signFill v top = (BitVec.ofNat (top + 1) v.toNat).signExtend 32)

/-- R56: `PLACE` is `(value mod 2^width) · 2^offset`, sets no bit outside its range, and is read back
as the truncated value. -/
def Obligations.PlaceMasksAndShifts : Prop :=
  ∀ (value : Int) (width offset : Nat), 1 ≤ width → width ≤ 32 → offset + width ≤ 32 →
    ((place value width offset).toNat : Int) = value % 2 ^ width * 2 ^ offset ∧
    place value width offset &&& ~~~ rangeMask offset (offset + width - 1) = 0 ∧
    extractBits (place value width offset) offset (offset + width - 1) =
      BitVec.ofNat 32 (trunc width value)

/-! ## The layouts -/

/-- R31, R34: in each layout every descriptor's width is `stop - start + 1` and every one of the 32
bits lies in exactly one field. -/
def Obligations.LayoutsPartitionTheWord : Prop :=
  (∀ f ∈ rLayout ++ iLayout, f.width = f.stop - f.start + 1) ∧
  (∀ k < 32, (rLayout.filter fun f => f.start ≤ k && k ≤ f.stop).length = 1) ∧
  (∀ k < 32, (iLayout.filter fun f => f.start ≤ k && k ≤ f.stop).length = 1) ∧
  (rLayout.map Field.width).sum = 32 ∧ (iLayout.map Field.width).sum = 32

/-- R35: the four shared fields read the same in both formats, and the raw immediate is
`funct7 ‖ rs2`. -/
def Obligations.FormatsShareTheirLowFields : Prop :=
  ∀ (word : Word) (s : State),
    exec (.iOpcode word) s = exec (.rOpcode word) s ∧
    exec (.iRd word) s = exec (.rRd word) s ∧
    exec (.iFunct3 word) s = exec (.rFunct3 word) s ∧
    exec (.iRs1 word) s = exec (.rRs1 word) s ∧
    ∃ (f7 : U7) (r2 : U5),
      exec (.rFunct7 word) s = .next (showing (.funct7 f7)) ∧
      exec (.rRs2 word) s = .next (showing (.rs2 r2)) ∧
      word.toNat / 2 ^ 20 = f7.toNat * 32 + r2.toNat

/-- R39: every word is unpacked by both formats, and is the packed word of exactly one tuple of
in-range field values in each. -/
def Obligations.EveryWordIsLegalInBothFormats : Prop :=
  ∀ (word : Word) (s : State),
    (∃ f : RFields, exec (.rUnpack word) s = .next (showing (.rFields f))) ∧
    (∃ f : IFields, exec (.iUnpack word) s = .next (showing (.iFields f))) ∧
    (∃ f : RFields, ∀ g : RFields,
      exec (repackR g) s = .next (showing (.word word)) ↔ g = f) ∧
    (∃ f : IFields, f.wf = true ∧ ∀ g : IFields, g.wf = true →
      (exec (repackI g) s = .next (showing (.word word)) ↔ g = f))

/-! ## The R-type codec -/

/-- R70: the packed R-type word as the sum of its truncated, placed fields, for any inputs. -/
def Obligations.RPackPlacesEachField : Prop :=
  ∀ (funct7 rs2 rs1 funct3 rd opcode : Arg) (s : State),
    exec (.rPack funct7 rs2 rs1 funct3 rd opcode) s = .next (showing (.word (BitVec.ofNat 32
        (funct7.toNat % 128 * 2 ^ 25 + rs2.toNat % 32 * 2 ^ 20 + rs1.toNat % 32 * 2 ^ 15 +
          funct3.toNat % 8 * 2 ^ 12 + rd.toNat % 32 * 2 ^ 7 + opcode.toNat % 128))))

/-- R71: the six fields of any word, by division. -/
def Obligations.RUnpackAnswersTheSixFields : Prop :=
  ∀ (word : Word) (s : State),
    exec (.rUnpack word) s = .next (showing (.rFields
      { opcode := BitVec.ofNat 7 (word.toNat % 128)
        rd     := BitVec.ofNat 5 (word.toNat / 2 ^ 7 % 32)
        funct3 := BitVec.ofNat 3 (word.toNat / 2 ^ 12 % 8)
        rs1    := BitVec.ofNat 5 (word.toNat / 2 ^ 15 % 32)
        rs2    := BitVec.ofNat 5 (word.toNat / 2 ^ 20 % 32)
        funct7 := BitVec.ofNat 7 (word.toNat / 2 ^ 25) }))

/-- R72 to R77: each R-type accessor, by division. -/
def Obligations.RAccessorsAnswerTheirFields : Prop :=
  ∀ (word : Word) (s : State),
    exec (.rOpcode word) s = .next (showing (.opcode (BitVec.ofNat 7 (word.toNat % 128)))) ∧
    exec (.rRd word) s = .next (showing (.rd (BitVec.ofNat 5 (word.toNat / 128 % 32)))) ∧
    exec (.rFunct3 word) s = .next (showing (.funct3 (BitVec.ofNat 3 (word.toNat / 4096 % 8)))) ∧
    exec (.rRs1 word) s = .next (showing (.rs1 (BitVec.ofNat 5 (word.toNat / 2 ^ 15 % 32)))) ∧
    exec (.rRs2 word) s = .next (showing (.rs2 (BitVec.ofNat 5 (word.toNat / 2 ^ 20 % 32)))) ∧
    exec (.rFunct7 word) s = .next (showing (.funct7 (BitVec.ofNat 7 (word.toNat / 2 ^ 25))))

/-- R78: unpacking a packed word gives back the truncated inputs. -/
def Obligations.RUnpackRecoversTruncatedInputs : Prop :=
  ∀ (funct7 rs2 rs1 funct3 rd opcode : Arg) (s s' : State),
    ∃ word : Word,
      exec (.rPack funct7 rs2 rs1 funct3 rd opcode) s = .next (showing (.word word)) ∧
      exec (.rUnpack word) s' = .next (showing (.rFields
        { opcode := BitVec.ofNat 7 opcode.toNat
          rd     := BitVec.ofNat 5 rd.toNat
          funct3 := BitVec.ofNat 3 funct3.toNat
          rs1    := BitVec.ofNat 5 rs1.toNat
          rs2    := BitVec.ofNat 5 rs2.toNat
          funct7 := BitVec.ofNat 7 funct7.toNat }))

/-- R79: packing the unpacked fields reproduces the word, and the two are inverse bijections between
words and tuples of in-range field values. -/
def Obligations.RPackReproducesTheWord : Prop :=
  (∀ (word : Word) (s s' : State), ∃ f : RFields,
    exec (.rUnpack word) s = .next (showing (.rFields f)) ∧
    exec (repackR f) s' = .next (showing (.word word))) ∧
  (∀ (f : RFields) (s s' : State), ∃ word : Word,
    exec (repackR f) s = .next (showing (.word word)) ∧
    exec (.rUnpack word) s' = .next (showing (.rFields f)))

/-- R80: the six words with one field all ones; they are pairwise disjoint and cover the word. -/
def Obligations.RFieldsAreDisjoint : Prop :=
  (∀ s : State,
    exec (.rPack 127 0 0 0 0 0) s = .next (showing (.word 0xFE000000)) ∧
    exec (.rPack 0 31 0 0 0 0) s = .next (showing (.word 0x01F00000)) ∧
    exec (.rPack 0 0 31 0 0 0) s = .next (showing (.word 0x000F8000)) ∧
    exec (.rPack 0 0 0 7 0 0) s = .next (showing (.word 0x00007000)) ∧
    exec (.rPack 0 0 0 0 31 0) s = .next (showing (.word 0x00000F80)) ∧
    exec (.rPack 0 0 0 0 0 127) s = .next (showing (.word 0x0000007F))) ∧
  ([0xFE000000, 0x01F00000, 0x000F8000, 0x00007000, 0x00000F80, 0x0000007F] :
      List Word).Pairwise (fun a b => a &&& b = 0) ∧
  ([0xFE000000, 0x01F00000, 0x000F8000, 0x00007000, 0x00000F80, 0x0000007F] :
      List Word).foldl (· ||| ·) 0 = 0xFFFFFFFF

/-- R81: changing one input of `R_PACK` changes only the bits of that input's field. -/
def Obligations.REachFieldHasItsOwnInput : Prop :=
  ∀ (funct7 rs2 rs1 funct3 rd opcode other : Arg) (s : State),
    ∃ word w7 w2 w1 w3 wd wo : Word,
      exec (.rPack funct7 rs2 rs1 funct3 rd opcode) s = .next (showing (.word word)) ∧
      exec (.rPack other rs2 rs1 funct3 rd opcode) s = .next (showing (.word w7)) ∧
      exec (.rPack funct7 other rs1 funct3 rd opcode) s = .next (showing (.word w2)) ∧
      exec (.rPack funct7 rs2 other funct3 rd opcode) s = .next (showing (.word w1)) ∧
      exec (.rPack funct7 rs2 rs1 other rd opcode) s = .next (showing (.word w3)) ∧
      exec (.rPack funct7 rs2 rs1 funct3 other opcode) s = .next (showing (.word wd)) ∧
      exec (.rPack funct7 rs2 rs1 funct3 rd other) s = .next (showing (.word wo)) ∧
      (word ^^^ w7) &&& ~~~ 0xFE000000 = 0 ∧ (word ^^^ w2) &&& ~~~ 0x01F00000 = 0 ∧
      (word ^^^ w1) &&& ~~~ 0x000F8000 = 0 ∧ (word ^^^ w3) &&& ~~~ 0x00007000 = 0 ∧
      (word ^^^ wd) &&& ~~~ 0x00000F80 = 0 ∧ (word ^^^ wo) &&& ~~~ 0x0000007F = 0

/-- R139: a caller sees a truncation, and only a truncation, by comparing what it packed with what
unpacks. -/
def Obligations.TruncationShowsOnlyByComparison : Prop :=
  (∀ (funct7 rs2 rs1 funct3 rd opcode : Arg) (s s' : State), ∃ (word : Word) (f : RFields),
    exec (.rPack funct7 rs2 rs1 funct3 rd opcode) s = .next (showing (.word word)) ∧
    exec (.rUnpack word) s' = .next (showing (.rFields f)) ∧
    ((f.funct7.toNat = funct7.toNat ∧ f.rs2.toNat = rs2.toNat ∧ f.rs1.toNat = rs1.toNat ∧
        f.funct3.toNat = funct3.toNat ∧ f.rd.toNat = rd.toNat ∧ f.opcode.toNat = opcode.toNat) ↔
      (funct7.toNat ≤ 127 ∧ rs2.toNat ≤ 31 ∧ rs1.toNat ≤ 31 ∧ funct3.toNat ≤ 7 ∧
        rd.toNat ≤ 31 ∧ opcode.toNat ≤ 127))) ∧
  (∀ (immediate : SArg) (rs1 funct3 rd opcode : Arg) (s s' : State),
    ∃ (word : Word) (f : IFields),
    exec (.iPack immediate rs1 funct3 rd opcode) s = .next (showing (.word word)) ∧
    exec (.iUnpack word) s' = .next (showing (.iFields f)) ∧
    ((f.immediate.toInt = immediate.toInt ∧ f.rs1.toNat = rs1.toNat ∧
        f.funct3.toNat = funct3.toNat ∧ f.rd.toNat = rd.toNat ∧ f.opcode.toNat = opcode.toNat) ↔
      (-2048 ≤ immediate.toInt ∧ immediate.toInt ≤ 2047 ∧ rs1.toNat ≤ 31 ∧ funct3.toNat ≤ 7 ∧
        rd.toNat ≤ 31 ∧ opcode.toNat ≤ 127)))

/-- R7: a pack rule reads only the low bits of an input, so the width `ARGW` of an input changes no
word. -/
def Obligations.ArgumentWidthChangesNoWord : Prop :=
  (∀ a a' b b' c c' d d' e e' f f' : Int,
    a % 128 = a' % 128 → b % 32 = b' % 32 → c % 32 = c' % 32 → d % 8 = d' % 8 →
    e % 32 = e' % 32 → f % 128 = f' % 128 → rWord a b c d e f = rWord a' b' c' d' e' f') ∧
  (∀ a a' c c' d d' e e' f f' : Int,
    a % 4096 = a' % 4096 → c % 32 = c' % 32 → d % 8 = d' % 8 → e % 32 = e' % 32 →
    f % 128 = f' % 128 → iWord a c d e f = iWord a' c' d' e' f')

/-! ## The I-type codec -/

/-- R97: the raw twelve bits of a signed immediate. -/
def Obligations.RawImmediateIsTheLowTwelveBits : Prop :=
  (∀ v : Int, (raw12 v : Int) = v % 4096) ∧
  (∀ v : SArg, raw12 v.toInt = v.toNat % 4096) ∧
  (∀ v : Int, 0 ≤ v → v ≤ 2047 → (raw12 v : Int) = v) ∧
  (∀ v : Int, -2048 ≤ v → v ≤ -1 → (raw12 v : Int) = v + 4096)

/-- R90: the packed I-type word as the sum of its truncated, placed fields, for any inputs. -/
def Obligations.IPackPlacesEachField : Prop :=
  ∀ (immediate : SArg) (rs1 funct3 rd opcode : Arg) (s : State),
    exec (.iPack immediate rs1 funct3 rd opcode) s = .next (showing (.word (BitVec.ofNat 32
        ((immediate.toInt % 4096).toNat * 2 ^ 20 + rs1.toNat % 32 * 2 ^ 15 +
          funct3.toNat % 8 * 2 ^ 12 + rd.toNat % 32 * 2 ^ 7 + opcode.toNat % 128))))

/-- R91: the five fields of any word; the immediate is the twelve bits sign-extended. -/
def Obligations.IUnpackAnswersTheFiveFields : Prop :=
  ∀ (word : Word) (s : State),
    exec (.iUnpack word) s = .next (showing (.iFields
      { opcode    := BitVec.ofNat 7 (word.toNat % 128)
        rd        := BitVec.ofNat 5 (word.toNat / 2 ^ 7 % 32)
        funct3    := BitVec.ofNat 3 (word.toNat / 2 ^ 12 % 8)
        rs1       := BitVec.ofNat 5 (word.toNat / 2 ^ 15 % 32)
        immediate := (BitVec.ofNat 12 (word.toNat / 2 ^ 20)).signExtend 32 }))

/-- R92 to R95: the four unsigned I-type accessors, by division. -/
def Obligations.IAccessorsAnswerTheirFields : Prop :=
  ∀ (word : Word) (s : State),
    exec (.iOpcode word) s = .next (showing (.opcode (BitVec.ofNat 7 (word.toNat % 128)))) ∧
    exec (.iRd word) s = .next (showing (.rd (BitVec.ofNat 5 (word.toNat / 2 ^ 7 % 32)))) ∧
    exec (.iFunct3 word) s =
      .next (showing (.funct3 (BitVec.ofNat 3 (word.toNat / 2 ^ 12 % 8)))) ∧
    exec (.iRs1 word) s = .next (showing (.rs1 (BitVec.ofNat 5 (word.toNat / 2 ^ 15 % 32))))

/-- R96, R36: the immediate's procedure: the twelve bits, with bits 12-31 of the extracted value
forced to `word[31]`, read as a signed number in -2048..2047. -/
def Obligations.IImmediateSignExtends : Prop :=
  ∀ (word : Word) (s : State),
    ∃ v : S32,
      exec (.iImmediate word) s = .next (showing (.immediate v)) ∧
      v.toNat = (if word.getLsbD 31 then word.toNat / 2 ^ 20 + 0xFFFFF000
        else word.toNat / 2 ^ 20) ∧
      (v = if word.getLsbD 31 then forceOnes (extractBits word 20 31) 12 31
        else forceZeros (extractBits word 20 31) 12 31) ∧
      v.toInt = (if v.toNat < 2 ^ 31 then (v.toNat : Int) else (v.toNat : Int) - 2 ^ 32) ∧
      -2048 ≤ v.toInt ∧ v.toInt ≤ 2047

/-- R98: the closed forms of the immediate. -/
def Obligations.ImmediateClosedForms : Prop :=
  ∀ (word : Word) (s : State),
    ∃ v : S32,
      exec (.iImmediate word) s = .next (showing (.immediate v)) ∧
      v.toInt = (word.toNat / 2 ^ 20 : Nat) - 4096 * (if word.getLsbD 31 then 1 else 0) ∧
      v.toInt = (BitVec.ofNat 12 (word.toNat / 2 ^ 20)).toInt ∧
      v = (BitVec.ofNat 12 (word.toNat / 2 ^ 20)).signExtend 32 ∧
      v.toInt = word.toInt / 2 ^ 20 ∧
      raw12 v.toInt = word.toNat / 2 ^ 20

/-- R99: unpacking a packed word gives back the truncated inputs; the immediate comes back unchanged
exactly in -2048..2047, and otherwise as the number of that range equal to it modulo 4096. -/
def Obligations.IUnpackRecoversTruncatedInputs : Prop :=
  ∀ (immediate : SArg) (rs1 funct3 rd opcode : Arg) (s s' : State),
    ∃ (word : Word) (f : IFields),
      exec (.iPack immediate rs1 funct3 rd opcode) s = .next (showing (.word word)) ∧
      exec (.iUnpack word) s' = .next (showing (.iFields f)) ∧
      f.opcode = BitVec.ofNat 7 opcode.toNat ∧ f.rd = BitVec.ofNat 5 rd.toNat ∧
      f.funct3 = BitVec.ofNat 3 funct3.toNat ∧ f.rs1 = BitVec.ofNat 5 rs1.toNat ∧
      f.immediate.toInt = (BitVec.ofInt 12 immediate.toInt).toInt ∧
      (f.immediate.toInt = immediate.toInt ↔
        -2048 ≤ immediate.toInt ∧ immediate.toInt ≤ 2047) ∧
      (∀ k : Int, -2048 ≤ k → k ≤ 2047 → k % 4096 = immediate.toInt % 4096 →
        f.immediate.toInt = k)

/-- R100: packing the unpacked fields reproduces the word, and the two are inverse bijections between
words and tuples with `immediate` in -2048..2047 and the other fields in range. -/
def Obligations.IPackReproducesTheWord : Prop :=
  (∀ (word : Word) (s s' : State), ∃ f : IFields, f.wf = true ∧
    exec (.iUnpack word) s = .next (showing (.iFields f)) ∧
    exec (repackI f) s' = .next (showing (.word word))) ∧
  (∀ (f : IFields) (s s' : State), f.wf = true → ∃ word : Word,
    exec (repackI f) s = .next (showing (.word word)) ∧
    exec (.iUnpack word) s' = .next (showing (.iFields f)))

/-- R101: the five words with one field all ones; they are pairwise disjoint and cover the word. -/
def Obligations.IFieldsAreDisjoint : Prop :=
  (∀ s : State,
    exec (.iPack (-1) 0 0 0 0) s = .next (showing (.word 0xFFF00000)) ∧
    exec (.iPack 4095 0 0 0 0) s = .next (showing (.word 0xFFF00000)) ∧
    exec (.iPack 0 31 0 0 0) s = .next (showing (.word 0x000F8000)) ∧
    exec (.iPack 0 0 7 0 0) s = .next (showing (.word 0x00007000)) ∧
    exec (.iPack 0 0 0 31 0) s = .next (showing (.word 0x00000F80)) ∧
    exec (.iPack 0 0 0 0 127) s = .next (showing (.word 0x0000007F))) ∧
  ([0xFFF00000, 0x000F8000, 0x00007000, 0x00000F80, 0x0000007F] :
      List Word).Pairwise (fun a b => a &&& b = 0) ∧
  ([0xFFF00000, 0x000F8000, 0x00007000, 0x00000F80, 0x0000007F] :
      List Word).foldl (· ||| ·) 0 = 0xFFFFFFFF

/-- R102: one format's word read with the other format's codec. -/
def Obligations.CrossFormatReadings : Prop :=
  (∀ (f : RFields) (s s' : State), ∃ (word : Word) (v : S32),
    exec (repackR f) s = .next (showing (.word word)) ∧
    exec (.iUnpack word) s' = .next (showing (.iFields
      { opcode := f.opcode, rd := f.rd, funct3 := f.funct3, rs1 := f.rs1, immediate := v })) ∧
    v.toInt = (BitVec.ofNat 12 (f.funct7.toNat * 32 + f.rs2.toNat)).toInt ∧
    (v.toInt < 0 ↔ 64 ≤ f.funct7.toNat)) ∧
  (∀ (f : IFields) (s s' : State), f.wf = true → ∃ word : Word,
    exec (repackI f) s = .next (showing (.word word)) ∧
    exec (.rUnpack word) s' = .next (showing (.rFields
      { opcode := f.opcode, rd := f.rd, funct3 := f.funct3, rs1 := f.rs1
        rs2 := BitVec.ofNat 5 (raw12 f.immediate.toInt % 32)
        funct7 := BitVec.ofNat 7 (raw12 f.immediate.toInt / 32) })))

/-- R45: the decoded immediate takes every value of -2048..2047, its extremes from the patterns 0x800
and 0x7FF, and -1 from all ones. -/
def Obligations.EveryImmediateValueIsDecoded : Prop :=
  (∀ k : Int, -2048 ≤ k → k ≤ 2047 → ∀ s : State, ∃ (word : Word) (v : S32),
    exec (.iImmediate word) s = .next (showing (.immediate v)) ∧ v.toInt = k) ∧
  (∀ (low : Word) (s : State), low.toNat < 2 ^ 20 →
    exec (.iImmediate (0x80000000 ||| low)) s =
      .next (showing (.immediate (BitVec.ofInt 32 (-2048)))) ∧
    exec (.iImmediate (0x7FF00000 ||| low)) s =
      .next (showing (.immediate (BitVec.ofInt 32 2047))) ∧
    exec (.iImmediate (0xFFF00000 ||| low)) s =
      .next (showing (.immediate (BitVec.ofInt 32 (-1)))))

/-! ## The debug view -/

/-- R112: every number of an R-type view is the record's, and bit 7 is 0. -/
def Obligations.RDebugViewKeepsEveryNumber : Prop :=
  ∀ (f : RFields) (s : State), ∃ v : RDebugView,
    exec (.rDebugView f) s = .next (showing (.rDebugView v)) ∧
    v.opcode.toNat = f.opcode.toNat ∧ v.rd.toNat = f.rd.toNat ∧
    v.funct3.toNat = f.funct3.toNat ∧ v.rs1.toNat = f.rs1.toNat ∧
    v.rs2.toNat = f.rs2.toNat ∧ v.funct7.toNat = f.funct7.toNat ∧
    v.opcode.getLsbD 7 = false ∧ v.rd.getLsbD 7 = false ∧ v.funct3.getLsbD 7 = false ∧
    v.rs1.getLsbD 7 = false ∧ v.rs2.getLsbD 7 = false ∧ v.funct7.getLsbD 7 = false

/-- R113: every number of an I-type view is the number of the unpacked record; the immediate keeps the
low 16 bits of its pattern, and so its number, because an unpacked immediate lies in -2048..2047. -/
def Obligations.IDebugViewKeepsEveryNumber : Prop :=
  ∀ (f : IFields) (s : State), f.wf = true → ∃ v : IDebugView,
    exec (.iDebugView f) s = .next (showing (.iDebugView v)) ∧
    v.opcode.toNat = f.opcode.toNat ∧ v.rd.toNat = f.rd.toNat ∧
    v.funct3.toNat = f.funct3.toNat ∧ v.rs1.toNat = f.rs1.toNat ∧
    v.opcode.getLsbD 7 = false ∧ v.rd.getLsbD 7 = false ∧ v.funct3.getLsbD 7 = false ∧
    v.rs1.getLsbD 7 = false ∧
    v.immediate.toNat = f.immediate.toNat % 2 ^ 16 ∧ v.immediate.toInt = f.immediate.toInt

/-- The model's choice (log entry 5), which no rule of the spec gives: on ANY record, also one that
`I_UNPACK` cannot output, `I_DEBUG_VIEW` completes by the same formula, so the view's immediate is the
record's modulo 2^16. -/
def Obligations.IDebugViewCompletesOnEveryRecord : Prop :=
  ∀ (f : IFields) (s : State), ∃ v : IDebugView,
    exec (.iDebugView f) s = .next (showing (.iDebugView v)) ∧
    v.opcode.toNat = f.opcode.toNat ∧ v.rd.toNat = f.rd.toNat ∧
    v.funct3.toNat = f.funct3.toNat ∧ v.rs1.toNat = f.rs1.toNat ∧
    v.immediate.toNat = f.immediate.toNat % 2 ^ 16 ∧
    v.immediate.toInt % 2 ^ 16 = f.immediate.toInt % 2 ^ 16

/-- R115: two words have equal views of one format exactly when they are the same word. -/
def Obligations.ViewsAreEqualExactlyForOneWord : Prop :=
  ∀ (word word' : Word) (s : State),
    (∃ f f' : RFields,
      exec (.rUnpack word) s = .next (showing (.rFields f)) ∧
      exec (.rUnpack word') s = .next (showing (.rFields f')) ∧
      (shown (exec (.rDebugView f) s) = shown (exec (.rDebugView f') s) ↔ word = word')) ∧
    (∃ f f' : IFields,
      exec (.iUnpack word) s = .next (showing (.iFields f)) ∧
      exec (.iUnpack word') s = .next (showing (.iFields f')) ∧
      (shown (exec (.iDebugView f) s) = shown (exec (.iDebugView f') s) ↔ word = word'))

/-! ## The whole block -/

/-- R9, R10: an evaluation is a function of the operation and its input values alone: `exec` in any
state is `evaluate i` made by the one-element block, whichever block that is, and so is a step from any
state that presents it. That an evaluation is made by a step is the model's choice (log entries 1
and 3). -/
def Obligations.EvaluationIsAFunctionOfTheInputs : Prop :=
  ∀ (i : Instr) (b : Block),
    (∀ s : State, exec i s = conclude (inBlock b (evaluate i))) ∧
    (∀ s : State, s.inputs = some i → step s = conclude (inBlock b (evaluate i)))

/-- R10: the block's own state type has one element; the outcome of an evaluation is a function of its
inputs and of nothing else, whatever was evaluated before: in two states it is the same outcome, next
state and all. -/
def Obligations.OutcomeDependsOnInputsOnly : Prop :=
  (∀ a b : Block, a = b) ∧
  ∀ (i : Instr) (s s' : State),
    exec i s = exec i s' ∧ step (s.present i) = step (s'.present i) ∧
    shown (exec i s) = shown (exec i s') ∧ faultOf (exec i s) = faultOf (exec i s')

/-- R10: beside the values of one evaluation a state is the one-element type: two states with the same
values at the ports are one state, a step reads of a state only which evaluation is asked for, and with
one asked for it is the block's machine over `Block`, outcome for outcome. That these values stand in the
state is the model's choice (log entry 1). -/
def Obligations.StepIsTheMachineOverTheOneElementType : Prop :=
  (∀ s s' : State, s.inputs = s'.inputs → s.outputs = s'.outputs → s = s') ∧
  (∀ s s' : State, s.inputs = s'.inputs → step s = step s') ∧
  ∀ (s : State) (i : Instr), s.inputs = some i →
    (∀ t : State, step s = .next t ↔
      ∃ o : Output, evaluateIn s.block i = .ok (o, t.block) ∧ t = showing o) ∧
    (∀ f : Fault, step s = .fault f ↔ evaluateIn s.block i = .error f)

/-- R19, R10: the frame of every operation: a completed evaluation leaves the outputs of its own unit and
nothing else: the block is as before, no input is kept and no earlier output is. That ports stand in the
state is the model's choice (log entry 1). -/
def Obligations.EvaluationDrivesOnlyItsOwnOutputs : Prop :=
  ∀ (i : Instr) (s t : State), exec i s = .next t →
    t.block = s.block ∧ t.inputs = none ∧
      ∃ o : Output, o.isOf i = true ∧ t.outputs = some o

/-- R121, R138: an operation completes in every state exactly when its caller kept the one duty it
has: a bit range with `start ≤ stop`. -/
def Obligations.LegalCallsCompleteInEveryState : Prop :=
  ∀ (i : Instr) (s : State), (∃ t, exec i s = .next t) ↔ legalCall i = true

/-- R9, R39: no evaluation is refused. -/
def Obligations.NothingIsRefused : Prop :=
  ∀ (s : State) (r : Refusal), step s ≠ .refused r

/-- R23: an evaluation made again with the same inputs, straight after the first or after any others,
gives the same outputs and the same state. That an evaluation is a step is the model's choice (log
entry 3). -/
def Obligations.RepeatedEvaluationChangesNothing : Prop :=
  ∀ (i : Instr) (s t : State), step (s.present i) = .next t →
    step (t.present i) = .next t ∧
      ∀ (between : List Instr) (os : List (Option Output)),
        evaluateAll between t = .next os →
          evaluateAll (between ++ [i]) t = .next (os ++ [t.outputs])

/-- R10, R137: nothing remains of an evaluation when it has ended: the state after it presents nothing,
and the step after that leaves the state of reset. That an evaluation is a step is the model's choice
(log entry 3). -/
def Obligations.NothingPersistsAcrossSteps : Prop :=
  ∀ s t : State, step s = .next t → t.inputs = none ∧ step t = .next State.reset

/-- R26, R137: in a sequence of evaluations with legal calls each one shows what it would show alone,
from reset. That the caller presents each in turn to a step is the model's choice (log entry 3). -/
def Obligations.EvaluationsOfASequenceAreIndependent : Prop :=
  ∀ (calls : List Instr) (s : State), (∀ i ∈ calls, legalCall i = true) →
    evaluateAll calls s = .next (calls.map fun i => shown (exec i State.reset))

/-- The invariant: what is presented can be presented, what is shown lies in the ranges of R96, R112,
R113 and R122, and nothing is shown beside an input. Every step keeps it, and what a step shows is an
output of the unit that was presented. That inputs and outputs stand in the state is the model's choice
(log entry 1). -/
def Obligations.CoherenceIsPreserved : Prop :=
  ∀ s t : State, s.Coherent → step s = .next t →
    t.Coherent ∧ ∀ i, s.inputs = some i → ∃ o : Output, t.outputs = some o ∧ o.isOf i = true

/-- The invariant holds at reset. What stands in the state at reset is the model's choice (log
entry 1). -/
def Obligations.ResetIsCoherent : Prop := State.reset.Coherent

/-- At reset nothing is presented or shown, and an evaluation made from there is the one made from any
state. That the ports stand in the state is the model's choice (log entry 1). -/
def Obligations.ResetHoldsNothing : Prop :=
  State.reset.inputs = none ∧ State.reset.outputs = none ∧
    ∀ (i : Instr) (s : State),
      shown (step (State.reset.present i)) = shown (step (s.present i)) ∧
      faultOf (step (State.reset.present i)) = faultOf (step (s.present i))

/-- A step makes the presented evaluation, and with none presented it leaves the state of reset. That a
step is one evaluation is the model's choice (log entry 3). -/
def Obligations.StepMakesThePresentedEvaluation : Prop :=
  ∀ s : State,
    (∀ i, s.inputs = some i → step s = exec i s) ∧
    (s.inputs = none → step s = .next State.reset)

/-- A frame that decodes, once presented, is evaluated by the very next step, and so is a table row's
word; presenting keeps nothing of the state before. The frame is the model's own (log entry 2). -/
def Obligations.StepRunsTheDecodedFrame : Prop :=
  (∀ (frame : List Word) (i : Instr) (s : State), decode frame = .ok i →
    s.presentFrame frame = presenting (some i) ∧
      step (s.presentFrame frame) = exec i (presenting (some i))) ∧
  (∀ (nbits w : Nat) (i : Instr) (s : State), decodeTableWord nbits w = some i →
    s.withFetchWord nbits w = presenting (some i) ∧
      step (s.withFetchWord nbits w) = exec i (presenting (some i)))

/-- Decoding the frame of a well-formed evaluation gives it back. The frame is the model's own (log
entry 2). -/
def Obligations.DecodeOfEncodeIsTheEvaluation : Prop :=
  ∀ i : Instr, i.WellFormed → decode (encode i) = .ok i

/-- A frame that decodes is the frame of what it decodes to, which is well formed. The frame is the
model's own (log entry 2). -/
def Obligations.EncodeOfDecodeIsTheFrame : Prop :=
  ∀ (frame : List Word) (i : Instr), decode frame = .ok i →
    encode i = frame ∧ i.WellFormed

/-- A few frames around the source's fixed words decode as written. The frame is the model's own (log
entry 2). -/
def Obligations.WrittenFramesDecode : Prop :=
  decode [0b0000000_10111_00111_000_01100_0110011, 0, 0, 0, 0, 0, 4] =
    .ok (.rUnpack 0x01738633) ∧
  decode [0xFECD8313, 20, 31, 0, 0, 0, 0] = .ok (.getBits 0xFECD8313 20 31) ∧
  decode [BitVec.ofInt 32 (-20), 27, 0, 6, 19, 0, 11] =
    .ok (.iPack (BitVec.ofInt 32 (-20)) 27 0 6 19) ∧
  decode [BitVec.ofInt 32 2048, 0, 0, 0, 0, 0, 19] = .error .immediateOutOfRange ∧
  decode [0, 32, 32, 0, 0, 0, 0] = .error (.portTooWide 5) ∧
  decode [0, 0, 0, 0, 0, 0, 20] = .error (.unknownUnit 20)

/-- V1 to V3: the source's fixed words, which tie the field positions to something outside the
model's text. -/
def Obligations.SourceFixedWordsUnpack : Prop :=
  ∀ s : State,
    exec (.rUnpack 0x01738633) s = .next (showing (.rFields
      { opcode := 51, rd := 12, funct3 := 0, rs1 := 7, rs2 := 23, funct7 := 0 })) ∧
    exec (.iPack (BitVec.ofInt 32 (-20)) 27 0 6 19) s = .next (showing (.word 0xFECD8313)) ∧
    exec (.iUnpack 0xFECD8313) s = .next (showing (.iFields
      { opcode := 19, rd := 6, funct3 := 0, rs1 := 27, immediate := BitVec.ofInt 32 (-20) })) ∧
    exec (.iUnpack 0x0F053483) s = .next (showing (.iFields
      { opcode := 3, rd := 9, funct3 := 3, rs1 := 10, immediate := 240 }))

/-- C6: a caller replaces the bits of a legal range by a value: the range then reads as the truncated
value and every other bit is the word's. -/
def Obligations.FieldReplacementByComposition : Prop :=
  ∀ (word : Word) (value : Int) (start stop : Pos) (s : State), start ≤ stop →
    ∃ cleared : Word,
      exec (.setBitsToZero word start stop) s = .next (showing (.bits cleared 0)) ∧
      let replaced :=
        cleared ||| place value (stop.toNat - start.toNat + 1) start.toNat
      exec (.getBits replaced start stop) s = .next (showing (.bits
        (BitVec.ofNat 32 (trunc (stop.toNat - start.toNat + 1) value)) 0)) ∧
      ∀ k < 32, ¬ (start.toNat ≤ k ∧ k ≤ stop.toNat) →
        replaced.getLsbD k = word.getLsbD k

/-- R53 to R55, R70, R71, R90, R91: what each unit shows is its value function applied to its inputs,
so a law of the value functions is a law of the evaluations. -/
def Obligations.UnitsShowTheirValueFunctions : Prop :=
  ∀ s : State,
    (∀ (word : Word) (start stop : Pos), start ≤ stop →
      exec (.getBits word start stop) s = .next (showing (.bits
        (extractBits word start.toNat stop.toNat) 0)) ∧
      exec (.setBitsToOne word start stop) s = .next (showing (.bits
        (forceOnes word start.toNat stop.toNat) 0)) ∧
      exec (.setBitsToZero word start stop) s = .next (showing (.bits
        (forceZeros word start.toNat stop.toNat) 0))) ∧
    (∀ a b c d e f : Arg, exec (.rPack a b c d e f) s = .next (showing (.word
      (rWord a.toNat b.toNat c.toNat d.toNat e.toNat f.toNat)))) ∧
    (∀ (a : SArg) (c d e f : Arg), exec (.iPack a c d e f) s = .next (showing (.word
      (iWord a.toInt c.toNat d.toNat e.toNat f.toNat))))
end

