-- ==== Sys2Proof/Laws/Bits.lean ====
section
/-! SUPPORT. The bits of every helper of 40_bit_range_primitives. -/

namespace Sys2Proof.Machine

theorem mask_getLsbD (n k : Nat) :
    (mask n).getLsbD k = (decide (k < 32) && decide (k < n)) := by
  simp [mask, BitVec.getLsbD_ofNat, Nat.testBit_two_pow_sub_one]

theorem rangeMask_getLsbD (start stop k : Nat) :
    (rangeMask start stop).getLsbD k =
      (decide (k < 32) && (decide (start ≤ k) && decide (k - start < stop - start + 1))) := by
  simp [rangeMask, BitVec.getLsbD_ofNat, Nat.testBit_shiftLeft, Nat.testBit_two_pow_sub_one]

/-- On a legal range the mask has exactly the bits `start` to `stop` (R52). -/
theorem rangeMask_getLsbD_legal {start stop k : Nat} (h : start ≤ stop) (hk : k < 32) :
    (rangeMask start stop).getLsbD k = decide (start ≤ k ∧ k ≤ stop) := by
  rw [rangeMask_getLsbD]
  by_cases h1 : start ≤ k <;> by_cases h2 : k ≤ stop <;> simp [hk, h1, h2] <;> omega

/-- Bit `k` of an extracted range is bit `start + k` of the word (R53). -/
theorem extractBits_getLsbD (word : Word) (start stop k : Nat) :
    (extractBits word start stop).getLsbD k =
      (word.getLsbD (start + k) && decide (k < stop - start + 1)) := by
  rw [extractBits, BitVec.getLsbD_and, mask_getLsbD, BitVec.getLsbD_ushiftRight]
  by_cases h : k < 32
  · simp [h]
  · simp [h, BitVec.getLsbD_of_ge word (start + k) (by omega)]

/-- The number extracted (R53). -/
theorem extractBits_toNat {start stop : Nat} (word : Word) (h : start ≤ stop) (h' : stop ≤ 31) :
    (extractBits word start stop).toNat = word.toNat / 2 ^ start % 2 ^ (stop - start + 1) := by
  have hp : 2 ^ (stop - start + 1) ≤ 2 ^ 32 := Nat.pow_le_pow_right (by decide) (by omega)
  rw [extractBits, BitVec.toNat_and, BitVec.toNat_ushiftRight, mask, BitVec.toNat_ofNat,
    Nat.shiftRight_eq_div_pow, Nat.mod_eq_of_lt (by omega), Nat.and_two_pow_sub_one_eq_mod]

theorem forceOnes_getLsbD (word : Word) (start stop k : Nat) :
    (forceOnes word start stop).getLsbD k =
      (word.getLsbD k || (rangeMask start stop).getLsbD k) := by
  simp [forceOnes]

theorem forceZeros_getLsbD (word : Word) (start stop k : Nat) :
    (forceZeros word start stop).getLsbD k =
      (word.getLsbD k && (decide (k < 32) && !(rangeMask start stop).getLsbD k)) := by
  simp [forceZeros]

/-- `trunc_n` of an integer is its `n`-bit two's-complement pattern. -/
theorem trunc_eq_ofInt (n : Nat) (v : Int) : trunc n v = (BitVec.ofInt n v).toNat := by
  simp [trunc, BitVec.toNat_ofInt]

/-- A placed value is its low bits, shifted (R56). -/
theorem place_eq_shiftLeft (value : Int) (width offset : Nat) :
    place value width offset = ((BitVec.ofInt width value).setWidth 32) <<< offset := by
  rw [place, trunc_eq_ofInt]
  apply BitVec.eq_of_toNat_eq
  simp [Nat.shiftLeft_eq]

theorem place_getLsbD (value : Int) (width offset k : Nat) :
    (place value width offset).getLsbD k =
      (decide (k < 32) && (decide (offset ≤ k) && (BitVec.ofInt width value).getLsbD (k - offset))) := by
  rw [place_eq_shiftLeft]
  by_cases h : k < 32 <;> by_cases h' : offset ≤ k <;> simp [h, h', BitVec.getLsbD_setWidth]

end Sys2Proof.Machine
end

