-- ==== Sys2Proof/Laws/Codec.lean ====
section
/-! SUPPORT. The two codecs as slices and concatenations: every field is a slice of the word
(30_encoding R32, R33), every packed word the concatenation of its truncated fields. -/

namespace Sys2Proof.Machine

theorem readField_setWidth (word : Word) (field : Field) (width : Nat)
    (hw : width = field.stop - field.start + 1) :
    (readField word field).setWidth width = word.extractLsb' field.start width := by
  apply BitVec.eq_of_getLsbD_eq
  intro k hk
  have h : k < field.stop - field.start + 1 := hw ▸ hk
  by_cases h32 : field.start + k < 32
  · simp [readField, extractBits_getLsbD, hk, h]
  · simp [readField, extractBits_getLsbD, hk, h]

theorem opcodeOf_eq_slice (word : Word) : opcodeOf word = word.extractLsb' 0 7 :=
  readField_setWidth word opcodeField 7 rfl
theorem rdOf_eq_slice (word : Word) : rdOf word = word.extractLsb' 7 5 :=
  readField_setWidth word rdField 5 rfl
theorem funct3Of_eq_slice (word : Word) : funct3Of word = word.extractLsb' 12 3 :=
  readField_setWidth word funct3Field 3 rfl
theorem rs1Of_eq_slice (word : Word) : rs1Of word = word.extractLsb' 15 5 :=
  readField_setWidth word rs1Field 5 rfl
theorem rs2Of_eq_slice (word : Word) : rs2Of word = word.extractLsb' 20 5 :=
  readField_setWidth word rs2Field 5 rfl
theorem funct7Of_eq_slice (word : Word) : funct7Of word = word.extractLsb' 25 7 :=
  readField_setWidth word funct7Field 7 rfl

/-- The immediate's pattern, bit by bit: the field's twelve bits, then copies of the word's top
bit. -/
theorem immediateOf_getLsbD (word : Word) (k : Nat) :
    (immediateOf word).getLsbD k =
      (decide (k < 32) && if k < 12 then word.getLsbD (20 + k) else word.getLsbD 31) := by
  have top : (readField word immediateField).getLsbD 11 = word.getLsbD 31 := by
    rw [readField, extractBits_getLsbD]
    simp [immediateField]
  have below : ∀ j, (readField word immediateField).getLsbD j =
      (word.getLsbD (20 + j) && decide (j < 12)) := fun j => extractBits_getLsbD word 20 31 j
  have fill : (rangeMask (11 + 1) 31).getLsbD k = (decide (k < 32) && decide (12 ≤ k)) := by
    rw [rangeMask_getLsbD]
    by_cases h32 : k < 32 <;> by_cases h12 : 12 ≤ k <;> simp [h32, h12]
    omega
  rw [immediateOf, signFill, top]
  cases hs : word.getLsbD 31
  · rw [if_neg (by simp), forceZeros_getLsbD, below, fill]
    by_cases h32 : k < 32 <;> by_cases h12 : k < 12 <;> simp [h32, h12]
  · rw [if_pos rfl, forceOnes_getLsbD, below, fill]
    by_cases h32 : k < 32 <;> by_cases h12 : k < 12 <;> simp [h32, h12] <;> omega

/-- The immediate is the twelve-bit slice, sign-extended (R98). -/
theorem immediateOf_eq_signExtend (word : Word) :
    immediateOf word = (word.extractLsb' 20 12).signExtend 32 := by
  apply BitVec.eq_of_getLsbD_eq
  intro k hk
  rw [immediateOf_getLsbD, BitVec.getLsbD_signExtend]
  simp only [BitVec.msb_eq_getLsbD_last, BitVec.getLsbD_extractLsb', hk]
  by_cases h12 : k < 12 <;> simp [h12]

/-- A packed R-type word is the concatenation of its truncated fields (R70). -/
theorem rWord_eq_append (funct7 rs2 rs1 funct3 rd opcode : Int) :
    rWord funct7 rs2 rs1 funct3 rd opcode =
      BitVec.ofInt 7 funct7 ++ BitVec.ofInt 5 rs2 ++ BitVec.ofInt 5 rs1 ++ BitVec.ofInt 3 funct3 ++
        BitVec.ofInt 5 rd ++ BitVec.ofInt 7 opcode := by
  apply BitVec.eq_of_getLsbD_eq
  intro k hk
  simp only [rWord, packFields, List.foldl, opcodeField, rdField, funct3Field, rs1Field, rs2Field,
    funct7Field, BitVec.getLsbD_or, place_getLsbD, BitVec.getLsbD_append]
  interval_cases k <;> simp

/-- A packed I-type word is the concatenation of its truncated fields (R90). -/
theorem iWord_eq_append (immediate rs1 funct3 rd opcode : Int) :
    iWord immediate rs1 funct3 rd opcode =
      BitVec.ofInt 12 immediate ++ BitVec.ofInt 5 rs1 ++ BitVec.ofInt 3 funct3 ++
        BitVec.ofInt 5 rd ++ BitVec.ofInt 7 opcode := by
  have raw : BitVec.ofInt 12 ((raw12 immediate : Nat) : Int) = BitVec.ofInt 12 immediate := by
    rw [raw12, trunc_eq_ofInt, BitVec.ofInt_natCast, BitVec.ofNat_toNat, BitVec.setWidth_eq]
  apply BitVec.eq_of_getLsbD_eq
  intro k hk
  simp only [iWord, packFields, List.foldl, opcodeField, rdField, funct3Field, rs1Field,
    immediateField, BitVec.getLsbD_or, place_getLsbD, BitVec.getLsbD_append, raw]
  interval_cases k <;> simp

/-! The fields read back from a packed word are the truncated inputs. -/

theorem opcodeOf_rWord (funct7 rs2 rs1 funct3 rd opcode : Int) :
    opcodeOf (rWord funct7 rs2 rs1 funct3 rd opcode) = BitVec.ofInt 7 opcode := by
  rw [opcodeOf_eq_slice, rWord_eq_append]
  apply BitVec.eq_of_getLsbD_eq
  intro k hk
  simp only [BitVec.getLsbD_extractLsb', BitVec.getLsbD_append]
  interval_cases k <;> simp

theorem rdOf_rWord (funct7 rs2 rs1 funct3 rd opcode : Int) :
    rdOf (rWord funct7 rs2 rs1 funct3 rd opcode) = BitVec.ofInt 5 rd := by
  rw [rdOf_eq_slice, rWord_eq_append]
  apply BitVec.eq_of_getLsbD_eq
  intro k hk
  simp only [BitVec.getLsbD_extractLsb', BitVec.getLsbD_append]
  interval_cases k <;> simp

theorem funct3Of_rWord (funct7 rs2 rs1 funct3 rd opcode : Int) :
    funct3Of (rWord funct7 rs2 rs1 funct3 rd opcode) = BitVec.ofInt 3 funct3 := by
  rw [funct3Of_eq_slice, rWord_eq_append]
  apply BitVec.eq_of_getLsbD_eq
  intro k hk
  simp only [BitVec.getLsbD_extractLsb', BitVec.getLsbD_append]
  interval_cases k <;> simp

theorem rs1Of_rWord (funct7 rs2 rs1 funct3 rd opcode : Int) :
    rs1Of (rWord funct7 rs2 rs1 funct3 rd opcode) = BitVec.ofInt 5 rs1 := by
  rw [rs1Of_eq_slice, rWord_eq_append]
  apply BitVec.eq_of_getLsbD_eq
  intro k hk
  simp only [BitVec.getLsbD_extractLsb', BitVec.getLsbD_append]
  interval_cases k <;> simp

theorem rs2Of_rWord (funct7 rs2 rs1 funct3 rd opcode : Int) :
    rs2Of (rWord funct7 rs2 rs1 funct3 rd opcode) = BitVec.ofInt 5 rs2 := by
  rw [rs2Of_eq_slice, rWord_eq_append]
  apply BitVec.eq_of_getLsbD_eq
  intro k hk
  simp only [BitVec.getLsbD_extractLsb', BitVec.getLsbD_append]
  interval_cases k <;> simp

theorem funct7Of_rWord (funct7 rs2 rs1 funct3 rd opcode : Int) :
    funct7Of (rWord funct7 rs2 rs1 funct3 rd opcode) = BitVec.ofInt 7 funct7 := by
  rw [funct7Of_eq_slice, rWord_eq_append]
  apply BitVec.eq_of_getLsbD_eq
  intro k hk
  simp only [BitVec.getLsbD_extractLsb', BitVec.getLsbD_append]
  interval_cases k <;> simp

theorem opcodeOf_iWord (immediate rs1 funct3 rd opcode : Int) :
    opcodeOf (iWord immediate rs1 funct3 rd opcode) = BitVec.ofInt 7 opcode := by
  rw [opcodeOf_eq_slice, iWord_eq_append]
  apply BitVec.eq_of_getLsbD_eq
  intro k hk
  simp only [BitVec.getLsbD_extractLsb', BitVec.getLsbD_append]
  interval_cases k <;> simp

theorem rdOf_iWord (immediate rs1 funct3 rd opcode : Int) :
    rdOf (iWord immediate rs1 funct3 rd opcode) = BitVec.ofInt 5 rd := by
  rw [rdOf_eq_slice, iWord_eq_append]
  apply BitVec.eq_of_getLsbD_eq
  intro k hk
  simp only [BitVec.getLsbD_extractLsb', BitVec.getLsbD_append]
  interval_cases k <;> simp

theorem funct3Of_iWord (immediate rs1 funct3 rd opcode : Int) :
    funct3Of (iWord immediate rs1 funct3 rd opcode) = BitVec.ofInt 3 funct3 := by
  rw [funct3Of_eq_slice, iWord_eq_append]
  apply BitVec.eq_of_getLsbD_eq
  intro k hk
  simp only [BitVec.getLsbD_extractLsb', BitVec.getLsbD_append]
  interval_cases k <;> simp

theorem rs1Of_iWord (immediate rs1 funct3 rd opcode : Int) :
    rs1Of (iWord immediate rs1 funct3 rd opcode) = BitVec.ofInt 5 rs1 := by
  rw [rs1Of_eq_slice, iWord_eq_append]
  apply BitVec.eq_of_getLsbD_eq
  intro k hk
  simp only [BitVec.getLsbD_extractLsb', BitVec.getLsbD_append]
  interval_cases k <;> simp

theorem immediateOf_iWord (immediate rs1 funct3 rd opcode : Int) :
    immediateOf (iWord immediate rs1 funct3 rd opcode) =
      (BitVec.ofInt 12 immediate).signExtend 32 := by
  rw [immediateOf_eq_signExtend, iWord_eq_append]
  congr 1
  apply BitVec.eq_of_getLsbD_eq
  intro k hk
  simp only [BitVec.getLsbD_extractLsb', BitVec.getLsbD_append]
  interval_cases k <;> simp

end Sys2Proof.Machine
end

