-- ==== Sys2Proof/Laws/Decode.lean ====
section
/-! SUPPORT. What each part of reading a frame can answer. -/

namespace Sys2Proof

/-- A port value, widened to its port word, is read back. -/
theorem narrowPort_setWidth {width : Nat} (h : width ≤ 32) (v : BitVec width) :
    narrowPort width (v.setWidth 32) = .ok v := by
  have hv := v.isLt
  have hp : 2 ^ width ≤ 2 ^ 32 := Nat.pow_le_pow_right (by decide) h
  rw [narrowPort, BitVec.toNat_setWidth, Nat.mod_eq_of_lt (by omega), if_pos hv,
    BitVec.setWidth_setWidth_of_le _ h, BitVec.setWidth_eq]

/-- A port word that is read is the widened value. -/
theorem setWidth_of_narrowPort {width : Nat} {port : Word} {v : BitVec width}
    (h : narrowPort width port = .ok v) : v.setWidth 32 = port := by
  rw [narrowPort] at h
  split at h
  · rename_i hp
    cases h
    apply BitVec.eq_of_toNat_eq
    simp only [BitVec.toNat_setWidth, Nat.mod_eq_of_lt hp]
    exact Nat.mod_eq_of_lt port.isLt
  · cases h

/-- A frame with unused ports is read only where they are all 0. -/
theorem withUnused_ok {ports : List Word} {answer : Except DecodeError Instr} {i : Instr}
    (h : withUnused ports answer = .ok i) : (∀ p ∈ ports, p = 0) ∧ answer = .ok i := by
  rw [withUnused] at h
  split at h
  · rename_i hz
    exact ⟨by simpa using hz, h⟩
  · cases h

/-- A step of a reading succeeds only where both parts do. -/
theorem except_bind_ok {α β : Type} {x : Except DecodeError α} {f : α → Except DecodeError β}
    {b : β} (h : (x >>= f) = .ok b) : ∃ a, x = .ok a ∧ f a = .ok b := by
  cases x with
  | error e => cases h
  | ok a => exact ⟨a, rfl, h⟩

end Sys2Proof
end

