-- ==== Sys2Proof/Laws/State.lean ====
section
/-! SUPPORT. One lemma per field per update of the state. The updates are built on nothing but the
state with empty ports, so no lemma mentions what a state before held. -/

namespace Sys2Proof.Machine

/-- The block's own state type has one element (10_state R10). -/
theorem Block.eq (a b : Block) : a = b := rfl

@[simp] theorem State.reset_inputs : State.reset.inputs = none := rfl
@[simp] theorem State.reset_outputs : State.reset.outputs = none := rfl
@[simp] theorem presenting_inputs (i : Option Instr) : (presenting i).inputs = i := rfl
@[simp] theorem presenting_outputs (i : Option Instr) : (presenting i).outputs = none := rfl
@[simp] theorem showing_inputs (o : Output) : (showing o).inputs = none := rfl
@[simp] theorem showing_outputs (o : Output) : (showing o).outputs = some o := rfl

/-! Presenting forgets the state it is done in. -/

@[simp] theorem State.present_eq (s : State) (i : Instr) : s.present i = presenting (some i) := rfl
@[simp] theorem State.presentFrame_eq (s : State) (frame : List Word) :
    s.presentFrame frame = presenting (decode frame).toOption := rfl
@[simp] theorem State.presentTableWord_eq (s : State) (nbits w : Nat) :
    s.presentTableWord nbits w = presenting (decodeTableWord nbits w) := rfl

end Sys2Proof.Machine
end

