-- ==== Sys2Proof/Laws/Ops.lean ====
section
/-! SUPPORT. What each shared operation can do, said once: the provers cite these and unfold
nothing. -/

namespace Sys2Proof.Machine

/-- The precondition of the bit-range operations (R50). -/
theorem legalRange_iff (start stop : Nat) :
    legalRange start stop = true ↔ start ≤ stop ∧ stop ≤ 31 := by
  simp [legalRange]

/-- At the 5-bit ports only `start ≤ stop` is left of it (D3). -/
theorem legalRange_pos_iff (start stop : Pos) :
    legalRange start.toNat stop.toNat = true ↔ start ≤ stop := by
  have := stop.isLt
  simp only [legalRange_iff, BitVec.le_def] at *
  omega

theorem legalRange_pos_false_iff (start stop : Pos) :
    legalRange start.toNat stop.toNat = false ↔ stop < start := by
  rw [← Bool.not_eq_true, legalRange_pos_iff, BitVec.not_le]

theorem rangeFaultFlag_legal {start stop : Nat} (h : legalRange start stop = true) :
    rangeFaultFlag start stop = 0 := by
  simp [rangeFaultFlag, h]

@[simp] theorem inBlock_ok (b : Block) (o : Output) : inBlock b (.ok o) = .ok (o, b) := rfl
@[simp] theorem inBlock_error (b : Block) (f : Fault) : inBlock b (.error f) = .error f := rfl
@[simp] theorem conclude_ok (o : Output) (b : Block) :
    conclude (.ok (o, b)) = .next (showing o) := rfl
@[simp] theorem conclude_error (f : Fault) : conclude (.error f) = .fault f := rfl

theorem evalRange_legal {start stop : Nat} (h : legalRange start stop = true) (op : BitRangeOp)
    (result : Word) : evalRange op result start stop = .ok (.bits result 0) := by
  simp [evalRange, h, rangeFaultFlag_legal h]

theorem evalRange_illegal {start stop : Nat} (h : legalRange start stop = false) (op : BitRangeOp)
    (result : Word) : evalRange op result start stop = .error (.rangeFault op start stop) := by
  simp [evalRange, h, raiseRangeFault]

/-- A bit-range evaluation does one of two things. -/
theorem evalRange_cases (op : BitRangeOp) (result : Word) (start stop : Nat) :
    (legalRange start stop = true ∧ evalRange op result start stop = .ok (.bits result 0)) ∨
    (legalRange start stop = false ∧
      evalRange op result start stop = .error (.rangeFault op start stop)) := by
  cases h : legalRange start stop
  · exact .inr ⟨rfl, evalRange_illegal h op result⟩
  · exact .inl ⟨rfl, evalRange_legal h op result⟩

/-! The same in the host's form, as `exec` answers it. -/

theorem conclude_evalRange_legal {start stop : Nat} (h : legalRange start stop = true)
    (b : Block) (op : BitRangeOp) (result : Word) :
    conclude (inBlock b (evalRange op result start stop)) = .next (showing (.bits result 0)) := by
  rw [evalRange_legal h, inBlock_ok, conclude_ok]

theorem conclude_evalRange_illegal {start stop : Nat} (h : legalRange start stop = false)
    (b : Block) (op : BitRangeOp) (result : Word) :
    conclude (inBlock b (evalRange op result start stop)) = .fault (.rangeFault op start stop) := by
  rw [evalRange_illegal h, inBlock_error, conclude_error]

theorem conclude_evalRange_cases (b : Block) (op : BitRangeOp) (result : Word) (start stop : Nat) :
    (legalRange start stop = true ∧
      conclude (inBlock b (evalRange op result start stop)) = .next (showing (.bits result 0))) ∨
    (legalRange start stop = false ∧
      conclude (inBlock b (evalRange op result start stop)) = .fault (.rangeFault op start stop)) := by
  obtain ⟨hl, h⟩ | ⟨hl, h⟩ := evalRange_cases op result start stop
  · exact .inl ⟨hl, by rw [h, inBlock_ok, conclude_ok]⟩
  · exact .inr ⟨hl, by rw [h, inBlock_error, conclude_error]⟩

/-- Every arm of `exec` is the transition of its state's block. -/
theorem exec_eq_conclude (i : Instr) (s : State) : exec i s = conclude (evaluateIn s.block i) := by
  cases i <;> rfl

/-- Which block it is makes no difference, there being one. -/
theorem evaluateIn_congr (a b : Block) (i : Instr) : evaluateIn a i = evaluateIn b i := rfl

theorem evaluateIn_ok {i : Instr} {o : Output} (h : evaluate i = .ok o) (b : Block) :
    evaluateIn b i = .ok (o, b) := by
  rw [evaluateIn, h, inBlock_ok]

theorem evaluateIn_error {i : Instr} {f : Fault} (h : evaluate i = .error f) (b : Block) :
    evaluateIn b i = .error f := by
  rw [evaluateIn, h, inBlock_error]

/-! What each operation is, as its shared operation on its value function. -/

theorem exec_getBits (word : Word) (start stop : Pos) (s : State) :
    exec (.getBits word start stop) s =
      conclude (inBlock s.block (evalRange .getBits (extractBits word start.toNat stop.toNat)
        start.toNat stop.toNat)) := rfl
theorem exec_setBitsToOne (word : Word) (start stop : Pos) (s : State) :
    exec (.setBitsToOne word start stop) s =
      conclude (inBlock s.block (evalRange .setBitsToOne (forceOnes word start.toNat stop.toNat)
        start.toNat stop.toNat)) := rfl
theorem exec_setBitsToZero (word : Word) (start stop : Pos) (s : State) :
    exec (.setBitsToZero word start stop) s =
      conclude (inBlock s.block (evalRange .setBitsToZero (forceZeros word start.toNat stop.toNat)
        start.toNat stop.toNat)) := rfl
theorem exec_rPack (funct7 rs2 rs1 funct3 rd opcode : Arg) (s : State) :
    exec (.rPack funct7 rs2 rs1 funct3 rd opcode) s =
      .next (showing (.word
        (rWord funct7.toNat rs2.toNat rs1.toNat funct3.toNat rd.toNat opcode.toNat))) := rfl
theorem exec_rUnpack (word : Word) (s : State) :
    exec (.rUnpack word) s =
      .next (showing (.rFields (rFieldsOf word))) := rfl
theorem exec_rOpcode (word : Word) (s : State) :
    exec (.rOpcode word) s =
      .next (showing (.opcode (opcodeOf word))) := rfl
theorem exec_rRd (word : Word) (s : State) :
    exec (.rRd word) s =
      .next (showing (.rd (rdOf word))) := rfl
theorem exec_rFunct3 (word : Word) (s : State) :
    exec (.rFunct3 word) s =
      .next (showing (.funct3 (funct3Of word))) := rfl
theorem exec_rRs1 (word : Word) (s : State) :
    exec (.rRs1 word) s =
      .next (showing (.rs1 (rs1Of word))) := rfl
theorem exec_rRs2 (word : Word) (s : State) :
    exec (.rRs2 word) s =
      .next (showing (.rs2 (rs2Of word))) := rfl
theorem exec_rFunct7 (word : Word) (s : State) :
    exec (.rFunct7 word) s =
      .next (showing (.funct7 (funct7Of word))) := rfl
theorem exec_iPack (immediate : SArg) (rs1 funct3 rd opcode : Arg) (s : State) :
    exec (.iPack immediate rs1 funct3 rd opcode) s =
      .next (showing (.word
        (iWord immediate.toInt rs1.toNat funct3.toNat rd.toNat opcode.toNat))) := rfl
theorem exec_iUnpack (word : Word) (s : State) :
    exec (.iUnpack word) s =
      .next (showing (.iFields (iFieldsOf word))) := rfl
theorem exec_iOpcode (word : Word) (s : State) :
    exec (.iOpcode word) s =
      .next (showing (.opcode (opcodeOf word))) := rfl
theorem exec_iRd (word : Word) (s : State) :
    exec (.iRd word) s =
      .next (showing (.rd (rdOf word))) := rfl
theorem exec_iFunct3 (word : Word) (s : State) :
    exec (.iFunct3 word) s =
      .next (showing (.funct3 (funct3Of word))) := rfl
theorem exec_iRs1 (word : Word) (s : State) :
    exec (.iRs1 word) s =
      .next (showing (.rs1 (rs1Of word))) := rfl
theorem exec_iImmediate (word : Word) (s : State) :
    exec (.iImmediate word) s =
      .next (showing (.immediate (immediateOf word))) := rfl
theorem exec_rDebugView (fields : RFields) (s : State) :
    exec (.rDebugView fields) s =
      .next (showing (.rDebugView (rView fields))) := rfl
theorem exec_iDebugView (fields : IFields) (s : State) :
    exec (.iDebugView fields) s =
      .next (showing (.iDebugView (iView fields))) := rfl

/-- Whatever is evaluated: it has output values, or it is a `RangeFault`. -/
theorem evaluate_cases (i : Instr) :
    (∃ o, evaluate i = .ok o) ∨ ∃ op start stop, evaluate i = .error (.rangeFault op start stop) := by
  have range (op : BitRangeOp) (result : Word) (start stop : Nat) :
      (∃ o, evalRange op result start stop = .ok o) ∨
        ∃ op' a b, evalRange op result start stop = .error (.rangeFault op' a b) := by
    obtain ⟨-, h⟩ | ⟨-, h⟩ := evalRange_cases op result start stop
    · exact .inl ⟨_, h⟩
    · exact .inr ⟨_, _, _, h⟩
  cases i
  case getBits => exact range ..
  case setBitsToOne => exact range ..
  case setBitsToZero => exact range ..
  all_goals exact .inl ⟨_, rfl⟩

/-- The same of `exec`: it shows some outputs, or it is a `RangeFault`. -/
theorem exec_cases (i : Instr) (s : State) :
    (∃ o, evaluate i = .ok o ∧ exec i s = .next (showing o)) ∨
      ∃ op start stop, exec i s = .fault (.rangeFault op start stop) := by
  rw [exec_eq_conclude]
  obtain ⟨o, h⟩ | ⟨op, start, stop, h⟩ := evaluate_cases i
  · exact .inl ⟨o, h, by rw [evaluateIn_ok h, conclude_ok]⟩
  · exact .inr ⟨op, start, stop, by rw [evaluateIn_error h, conclude_error]⟩

/-- A next state is made of the evaluation's output values and of nothing else. -/
theorem exec_next {i : Instr} {s t : State} (h : exec i s = .next t) :
    ∃ o, evaluate i = .ok o ∧ t = showing o := by
  obtain ⟨o, ho, hs⟩ | ⟨_, _, _, hf⟩ := exec_cases i s
  · rw [hs] at h
    exact ⟨o, ho, by simpa using h.symm⟩
  · rw [hf] at h
    cases h

theorem step_none {s : State} (h : s.inputs = none) : step s = .next State.reset := by
  simp [step, h]

/-- A step with something presented is the transition of its state's block. -/
theorem step_some {s : State} {i : Instr} (h : s.inputs = some i) :
    step s = conclude (evaluateIn s.block i) := by
  simp [step, h, exec_eq_conclude]

/-- A step reads nothing of a state but which evaluation is asked for. -/
theorem step_congr {s s' : State} (h : s.inputs = s'.inputs) : step s = step s' := by
  cases hi : s.inputs with
  | none => rw [step_none hi, step_none (h ▸ hi)]
  | some i => rw [step_some hi, step_some (h ▸ hi)]

@[simp] theorem step_presenting (i : Instr) :
    step (presenting (some i)) = conclude (evaluateIn {} i) :=
  step_some rfl

end Sys2Proof.Machine
end

