-- ==== Sys2Proof/Laws/PerInstr.lean ====
section
/-! SUPPORT. Statements for all operations, one lemma per constructor. -/

namespace Sys2Proof.Laws.FrameShape

/-- The frame of an evaluation has seven words, the last of which is one of the twenty unit
numbers. -/
def Statement (i : Instr) : Prop :=
  (encode i).length = 7 ∧ ∃ unit : Nat, unit < 20 ∧ (encode i)[6]? = some (BitVec.ofNat 32 unit)

theorem getBits (word : Word) (start stop : Pos) : Statement (.getBits word start stop) :=
  ⟨rfl, 0, by decide, rfl⟩
theorem setBitsToOne (word : Word) (start stop : Pos) : Statement (.setBitsToOne word start stop) :=
  ⟨rfl, 1, by decide, rfl⟩
theorem setBitsToZero (word : Word) (start stop : Pos) :
    Statement (.setBitsToZero word start stop) := ⟨rfl, 2, by decide, rfl⟩
theorem rPack (funct7 rs2 rs1 funct3 rd opcode : Arg) :
    Statement (.rPack funct7 rs2 rs1 funct3 rd opcode) := ⟨rfl, 3, by decide, rfl⟩
theorem rUnpack (word : Word) : Statement (.rUnpack word) := ⟨rfl, 4, by decide, rfl⟩
theorem rOpcode (word : Word) : Statement (.rOpcode word) := ⟨rfl, 5, by decide, rfl⟩
theorem rRd (word : Word) : Statement (.rRd word) := ⟨rfl, 6, by decide, rfl⟩
theorem rFunct3 (word : Word) : Statement (.rFunct3 word) := ⟨rfl, 7, by decide, rfl⟩
theorem rRs1 (word : Word) : Statement (.rRs1 word) := ⟨rfl, 8, by decide, rfl⟩
theorem rRs2 (word : Word) : Statement (.rRs2 word) := ⟨rfl, 9, by decide, rfl⟩
theorem rFunct7 (word : Word) : Statement (.rFunct7 word) := ⟨rfl, 10, by decide, rfl⟩
theorem iPack (immediate : SArg) (rs1 funct3 rd opcode : Arg) :
    Statement (.iPack immediate rs1 funct3 rd opcode) := ⟨rfl, 11, by decide, rfl⟩
theorem iUnpack (word : Word) : Statement (.iUnpack word) := ⟨rfl, 12, by decide, rfl⟩
theorem iOpcode (word : Word) : Statement (.iOpcode word) := ⟨rfl, 13, by decide, rfl⟩
theorem iRd (word : Word) : Statement (.iRd word) := ⟨rfl, 14, by decide, rfl⟩
theorem iFunct3 (word : Word) : Statement (.iFunct3 word) := ⟨rfl, 15, by decide, rfl⟩
theorem iRs1 (word : Word) : Statement (.iRs1 word) := ⟨rfl, 16, by decide, rfl⟩
theorem iImmediate (word : Word) : Statement (.iImmediate word) := ⟨rfl, 17, by decide, rfl⟩
theorem rDebugView (fields : RFields) : Statement (.rDebugView fields) := ⟨rfl, 18, by decide, rfl⟩
theorem iDebugView (fields : IFields) : Statement (.iDebugView fields) := ⟨rfl, 19, by decide, rfl⟩

end Sys2Proof.Laws.FrameShape
end

