-- ==== Sys2Proof/Tests/Slice0.lean ====
section
/-! SUPPORT. Tests. Every expected value is spec/95_test_vectors.md's or is computed by hand from
the layouts of spec/30_encoding.md. -/

namespace Sys2Proof.Tests
open Sys2Proof.Machine

/-- A state with an input and an output in it, so that a test also sees that neither is read or kept. -/
def busy : State :=
  { block := {}, inputs := some (.rRd 0xDEADBEEF), outputs := some (.word 0xDEADBEEF) }

def record (opcode : U7) (rd : U5) (funct3 : U3) (rs1 : U5) (immediate : Int) : IFields :=
  ⟨opcode, rd, funct3, rs1, BitVec.ofInt 32 immediate⟩

/-! ## Well-formedness: the one check refuses a record that is no output of `I_UNPACK` -/

theorem test_wf_refuses_immediate_above :
    ¬ (Instr.iDebugView (record 0 0 0 0 2048)).WellFormed := by decide
theorem test_wf_refuses_immediate_below :
    ¬ (Instr.iDebugView (record 0 0 0 0 (-2049))).WellFormed := by decide
theorem test_wf_accepts_both_ends :
    (Instr.iDebugView (record 0 0 0 0 2047)).WellFormed ∧
      (Instr.iDebugView (record 0 0 0 0 (-2048))).WellFormed := by decide
theorem test_wf_accepts_upside_down_range : (Instr.getBits 0 7 6).WellFormed := by decide

/-! ## Reading frames: one per constructor, written out by hand -/

theorem test_decode_getBits :
    decode [0xDEADBEEF, 4, 7, 0, 0, 0, 0] = .ok (.getBits 0xDEADBEEF 4 7) := by rfl
theorem test_decode_setBitsToOne :
    decode [0x12345678, 8, 15, 0, 0, 0, 1] = .ok (.setBitsToOne 0x12345678 8 15) := by rfl
theorem test_decode_setBitsToZero :
    decode [0xDEADBEEF, 31, 31, 0, 0, 0, 2] = .ok (.setBitsToZero 0xDEADBEEF 31 31) := by rfl
theorem test_decode_rPack :
    decode [1, 2, 3, 4, 5, 6, 3] = .ok (.rPack 1 2 3 4 5 6) := by rfl
theorem test_decode_rUnpack :
    decode [0b0000000_10111_00111_000_01100_0110011, 0, 0, 0, 0, 0, 4] =
      .ok (.rUnpack 0x01738633) := by rfl
theorem test_decode_rOpcode :
    decode [0x01738633, 0, 0, 0, 0, 0, 5] = .ok (.rOpcode 0x01738633) := by rfl
theorem test_decode_rRd : decode [0x01738633, 0, 0, 0, 0, 0, 6] = .ok (.rRd 0x01738633) := by rfl
theorem test_decode_rFunct3 :
    decode [0x0221C286, 0, 0, 0, 0, 0, 7] = .ok (.rFunct3 0x0221C286) := by rfl
theorem test_decode_rRs1 : decode [0x01738633, 0, 0, 0, 0, 0, 8] = .ok (.rRs1 0x01738633) := by rfl
theorem test_decode_rRs2 : decode [0x01738633, 0, 0, 0, 0, 0, 9] = .ok (.rRs2 0x01738633) := by rfl
theorem test_decode_rFunct7 :
    decode [0x4020D1B3, 0, 0, 0, 0, 0, 10] = .ok (.rFunct7 0x4020D1B3) := by rfl
theorem test_decode_iPack :
    decode [0xFFFFFFEC, 27, 0, 6, 19, 0, 11] = .ok (.iPack 0xFFFFFFEC 27 0 6 19) := by rfl
theorem test_decode_iUnpack :
    decode [0b111111101100_11011_000_00110_0010011, 0, 0, 0, 0, 0, 12] =
      .ok (.iUnpack 0xFECD8313) := by rfl
theorem test_decode_iOpcode :
    decode [0xFECD8313, 0, 0, 0, 0, 0, 13] = .ok (.iOpcode 0xFECD8313) := by rfl
theorem test_decode_iRd : decode [0xFECD8313, 0, 0, 0, 0, 0, 14] = .ok (.iRd 0xFECD8313) := by rfl
theorem test_decode_iFunct3 :
    decode [0x0F053483, 0, 0, 0, 0, 0, 15] = .ok (.iFunct3 0x0F053483) := by rfl
theorem test_decode_iRs1 :
    decode [0x0F053483, 0, 0, 0, 0, 0, 16] = .ok (.iRs1 0x0F053483) := by rfl
theorem test_decode_iImmediate :
    decode [0x80000000, 0, 0, 0, 0, 0, 17] = .ok (.iImmediate 0x80000000) := by rfl
theorem test_decode_rDebugView :
    decode [127, 31, 30, 7, 29, 126, 18] =
      .ok (.rDebugView ⟨126, 29, 7, 30, 31, 127⟩) := by rfl
theorem test_decode_iDebugView :
    decode [0xFFFFFFEC, 27, 0, 6, 19, 0, 19] = .ok (.iDebugView (record 19 6 0 27 (-20))) := by rfl

/-! Every way a frame is refused. -/

theorem test_decode_refuses_short_frame : decode [1, 2, 3] = .error (.frameLength 3) := by rfl
theorem test_decode_refuses_unknown_unit :
    decode [0, 0, 0, 0, 0, 0, 20] = .error (.unknownUnit 20) := by rfl
theorem test_decode_refuses_unused_port :
    decode [0x01738633, 0, 0, 0, 0, 1, 4] = .error .unusedPort := by rfl
theorem test_decode_refuses_wide_position :
    decode [0, 0, 32, 0, 0, 0, 0] = .error (.portTooWide 5) := by rfl
theorem test_decode_refuses_wide_field :
    decode [0, 0, 0, 8, 0, 0, 18] = .error (.portTooWide 3) := by rfl
theorem test_decode_refuses_immediate :
    decode [2048, 0, 0, 0, 0, 0, 19] = .error .immediateOutOfRange := by rfl

/-- A table row's word reads as unit 0 on the range (0, 0): bit 0 of the word. -/
theorem test_table_word_is_unit_zero :
    decodeTableWord 32 0xDEADBEEF = some (.getBits 0xDEADBEEF 0 0) ∧
      shown (step (State.reset.withFetchWord 32 0xDEADBEEF)) = some (.bits 1 0) := by decide

/-! ## Helpers (95_test_vectors section 3.1) -/

theorem test_masks :
    mask 1 = 1 ∧ mask 12 = 0xFFF ∧ mask 31 = 0x7FFFFFFF ∧ mask 32 = 0xFFFFFFFF ∧
      rangeMask 15 19 = 0x000F8000 ∧ rangeMask 12 31 = 0xFFFFF000 ∧
      rangeMask 0 31 = 0xFFFFFFFF ∧ rangeMask 31 31 = 0x80000000 := by decide
theorem test_place :
    place 23 5 20 = 0x01700000 ∧ place 0xFFFFFFFF 5 7 = 0x00000F80 ∧ place 32 5 15 = 0 ∧
      place (-20) 12 20 = 0xFEC00000 ∧ place 2048 12 20 = 0x80000000 ∧
      place 51 7 0 = 0x33 := by decide
theorem test_raw12 :
    raw12 (-20) = 0xFEC ∧ raw12 2048 = 0x800 ∧ raw12 (-2049) = 0x7FF ∧ raw12 5000 = 0x388 ∧
      raw12 (-5000) = 0xC78 ∧ raw12 2147483647 = 0xFFF ∧ raw12 (-2147483648) = 0 := by decide
theorem test_range_fault_unbounded_positions :
    faultOf (conclude (inBlock {} (evalRange .getBits 0 32 32))) = some (.rangeFault .getBits 32 32) ∧
      faultOf (conclude (inBlock {} (evalRange .getBits 0 0 32))) = some (.rangeFault .getBits 0 32) := by
  decide

/-! ## One evaluation each (95_test_vectors sections 2 and 3) -/

theorem test_getBits :
    shown (exec (.getBits 0xDEADBEEF 0 31) busy) = some (.bits 0xDEADBEEF 0) ∧
      shown (exec (.getBits 0xDEADBEEF 31 31) busy) = some (.bits 1 0) ∧
      shown (exec (.getBits 0xDEADBEEF 12 19) busy) = some (.bits 0xDB 0) ∧
      shown (exec (.getBits 0xDEADBEEF 1 31) busy) = some (.bits 0x6F56DF77 0) := by decide
theorem test_getBits_faults :
    faultOf (exec (.getBits 0xDEADBEEF 7 6) busy) = some (.rangeFault .getBits 7 6) ∧
      shown (exec (.getBits 0xDEADBEEF 7 6) busy) = none ∧
      shown (exec (.getBits 0xDEADBEEF 6 6) busy) = some (.bits 1 0) := by decide
theorem test_setBitsToOne :
    shown (exec (.setBitsToOne 0xDEADBEEF 12 19) busy) = some (.bits 0xDEAFFEEF 0) ∧
      shown (exec (.setBitsToOne 0xFEC 12 31) busy) = some (.bits 0xFFFFFFEC 0) ∧
      shown (exec (.setBitsToOne 0 0 31) busy) = some (.bits 0xFFFFFFFF 0) := by decide
theorem test_setBitsToOne_faults :
    faultOf (exec (.setBitsToOne 0 12 11) busy) = some (.rangeFault .setBitsToOne 12 11) := by
  decide
theorem test_setBitsToZero :
    shown (exec (.setBitsToZero 0xDEADBEEF 12 19) busy) = some (.bits 0xDEA00EEF 0) ∧
      shown (exec (.setBitsToZero 0xDEADBEEF 31 31) busy) = some (.bits 0x5EADBEEF 0) ∧
      shown (exec (.setBitsToZero 0xFFFFFFFF 0 31) busy) = some (.bits 0 0) := by decide
theorem test_setBitsToZero_faults :
    faultOf (exec (.setBitsToZero 0xFFFFFFFF 1 0) busy) =
      some (.rangeFault .setBitsToZero 1 0) := by decide
theorem test_rPack_own_inputs :
    shown (exec (.rPack 1 2 3 4 5 6) busy) = some (.word 0x0221C286) ∧
      shown (exec (.rPack 32 2 1 5 3 51) busy) = some (.word 0x4020D1B3) := by decide
theorem test_rPack_truncates :
    shown (exec (.rPack 200 33 40 9 70 179) busy) = some (.word 0x90141333) ∧
      shown (exec (.rPack 0 0 0 0 0xFFFFFFFF 0) busy) = some (.word 0x00000F80) ∧
      shown (exec (.rPack 128 32 32 8 32 128) busy) = some (.word 0) := by decide
theorem test_rUnpack :
    shown (exec (.rUnpack 0x01738633) busy) = some (.rFields ⟨51, 12, 0, 7, 23, 0⟩) ∧
      shown (exec (.rUnpack 0xDEADBEEF) busy) = some (.rFields ⟨111, 29, 3, 27, 10, 111⟩) := by
  decide
theorem test_rOpcode : shown (exec (.rOpcode 0x01738633) busy) = some (.opcode 51) := by decide
theorem test_rRd : shown (exec (.rRd 0x01738633) busy) = some (.rd 12) := by decide
theorem test_rFunct3 : shown (exec (.rFunct3 0x0221C286) busy) = some (.funct3 4) := by decide
theorem test_rRs1 : shown (exec (.rRs1 0x00010000) busy) = some (.rs1 2) := by decide
theorem test_rRs2 : shown (exec (.rRs2 0x01738633) busy) = some (.rs2 23) := by decide
theorem test_rFunct7 : shown (exec (.rFunct7 0x80000000) busy) = some (.funct7 64) := by decide
theorem test_iPack :
    shown (exec (.iPack (BitVec.ofInt 32 (-20)) 59 8 38 147) busy) = some (.word 0xFECD8313) ∧
      shown (exec (.iPack 240 10 3 9 3) busy) = some (.word 0x0F053483) := by decide
theorem test_iPack_truncates :
    shown (exec (.iPack 5000 33 9 40 200) busy) = some (.word 0x38809448) ∧
      shown (exec (.iPack (BitVec.ofInt 32 (-5000)) 0 0 0 0) busy) = some (.word 0xC7800000) ∧
      shown (exec (.iPack 2048 0 0 0 0) busy) = some (.word 0x80000000) := by decide
theorem test_iUnpack :
    shown (exec (.iUnpack 0xFECD8313) busy) = some (.iFields (record 19 6 0 27 (-20))) ∧
      shown (exec (.iUnpack 0xDEADBEEF) busy) = some (.iFields (record 111 29 3 27 (-534))) := by
  decide
theorem test_iOpcode : shown (exec (.iOpcode 0xFECD8313) busy) = some (.opcode 19) := by decide
theorem test_iRd : shown (exec (.iRd 0xFECD8313) busy) = some (.rd 6) := by decide
theorem test_iFunct3 : shown (exec (.iFunct3 0x0F053483) busy) = some (.funct3 3) := by decide
theorem test_iRs1 : shown (exec (.iRs1 0x0F053483) busy) = some (.rs1 10) := by decide
theorem test_iImmediate :
    shown (exec (.iImmediate 0x80000000) busy) =
        some (.immediate (BitVec.ofInt 32 (-2048))) ∧
      shown (exec (.iImmediate 0x7FF00000) busy) = some (.immediate 2047) ∧
      shown (exec (.iImmediate 0x4020D1B3) busy) = some (.immediate 1026) := by decide
theorem test_rDebugView :
    shown (exec (.rDebugView ⟨127, 31, 7, 31, 31, 127⟩) busy) =
      some (.rDebugView ⟨0x7F, 0x1F, 0x07, 0x1F, 0x1F, 0x7F⟩) := by decide
theorem test_iDebugView :
    shown (exec (.iDebugView (record 19 6 0 27 (-20))) busy) =
        some (.iDebugView ⟨19, 6, 0, 27, 0xFFEC⟩) ∧
      shown (exec (.iDebugView (record 0 0 0 0 (-2048))) busy) =
        some (.iDebugView ⟨0, 0, 0, 0, 0xF800⟩) := by decide

/-- Outside -2048..2047 no value is the spec's: the model's choice of log entry 5 (here 65535 + 65536,
whose low 16 bits are all ones). -/
theorem test_iDebugView_out_of_range :
    shown (exec (.iDebugView (record 0 0 0 0 131071)) busy) =
      some (.iDebugView ⟨0, 0, 0, 0, 0xFFFF⟩) := by decide

/-! ## Steps -/

theorem test_step_shows_nothing_when_idle :
    step { busy with inputs := none } = .next State.reset := by rfl
/-- The step evaluates what is presented (R_RD of 0xDEADBEEF is 29); neither that input nor the output
shown before is left, and after one more step nothing is. -/
theorem test_step_keeps_nothing :
    step busy = .next { block := {}, inputs := none, outputs := some (.rd 29) } ∧
      step { block := {}, inputs := none, outputs := some (.rd 29) } = .next State.reset := ⟨rfl, rfl⟩
theorem test_presenting_keeps_nothing :
    busy.present (.rRs1 1) = { block := {}, inputs := some (.rRs1 1), outputs := none } := rfl
/-- P6: a chain with a bad range has no result. -/
theorem test_chain_carries_the_fault :
    evaluateAll [.rUnpack 0, .getBits 0xFECD8313 31 20, .setBitsToOne 0 12 31] State.reset =
      .fault (.rangeFault .getBits 31 20) := by rfl

/-- P1: decode, change two fields, encode again; P5: replace one field with the primitives. -/
theorem test_programs_P1_P5 :
    shown (exec (.rPack 32 23 7 0 31 51) busy) = some (.word 0x41738FB3) ∧
      shown (exec (.setBitsToZero 0x01738633 7 11) busy) = some (.bits 0x01738033 0) ∧
      (0x01738033 : Word) ||| place 17 5 7 = 0x017388B3 ∧
      shown (exec (.rPack 0 23 7 0 17 51) busy) = some (.word 0x017388B3) := by decide

/-! ## Witnesses: for each statement with hypotheses, operands that meet them, at the boundaries -/

/-- Bit ranges at the ports: full width, one bit at either end; and upside down by one and by all. -/
theorem witness_port_ranges :
    ((0 : Pos) ≤ 31 ∧ (31 : Pos) ≤ 31 ∧ (0 : Pos) ≤ 0) ∧ ((6 : Pos) < 7 ∧ (0 : Pos) < 31) := by
  decide
theorem witness_GetBitsAnswersTheBitRange :
    ((0 : Pos) ≤ 31 ∧ exec (.getBits 0xDEADBEEF 0 31) busy =
      .next (showing (.bits 0xDEADBEEF 0))) ∧
    ((6 : Pos) < 7 ∧
      exec (.getBits 0xDEADBEEF 7 6) busy = .fault (.rangeFault .getBits 7 6)) :=
  ⟨⟨by decide, rfl⟩, by decide, rfl⟩
theorem witness_SetBitsToOneForcesTheRange :
    ((31 : Pos) ≤ 31 ∧ exec (.setBitsToOne 0 31 31) busy =
      .next (showing (.bits 0x80000000 0))) ∧
    ((11 : Pos) < 12 ∧
      exec (.setBitsToOne 0 12 11) busy = .fault (.rangeFault .setBitsToOne 12 11)) :=
  ⟨⟨by decide, rfl⟩, by decide, rfl⟩
theorem witness_SetBitsToZeroClearsTheRange :
    ((0 : Pos) ≤ 0 ∧ exec (.setBitsToZero 0xDEADBEEF 0 0) busy =
      .next (showing (.bits 0xDEADBEEE 0))) ∧
    ((0 : Pos) < 1 ∧
      exec (.setBitsToZero 0 1 0) busy = .fault (.rangeFault .setBitsToZero 1 0)) :=
  ⟨⟨by decide, rfl⟩, by decide, rfl⟩
theorem witness_RangeFaultExactlyOnIllegalRanges :
    ((31 : Nat) ≤ 31 ∧ 31 ≤ 31) ∧ ¬ ((31 : Nat) ≤ 32 ∧ 32 ≤ 31) ∧ ¬ ((7 : Nat) ≤ 6 ∧ 6 ≤ 31) := by
  decide
theorem witness_OnlyBitRangeOperationsFault :
    exec (.setBitsToZero 0 1 0) busy = .fault (.rangeFault .setBitsToZero 1 0) := rfl
theorem witness_RangeFaultIsCombinationalAndCarriedForward :
    (∀ j ∈ [Instr.rUnpack 0, .getBits 0 0 31], legalCall j = true) ∧
      exec (.getBits 0 31 20) State.reset = .fault (.rangeFault .getBits 31 20) :=
  ⟨by decide, rfl⟩
theorem witness_MasksAreTheSpecifiedPatterns :
    (32 : Nat) ≤ 32 ∧ (0 : Nat) ≤ 31 ∧ (31 : Nat) ≤ 31 := by decide
theorem witness_GetBitsIsShiftAndMask : (20 : Pos) ≤ 31 := by decide
theorem witness_ForcingIsIdempotent : (12 : Pos) ≤ 31 := by decide
/-- The range (8, 15) with a disjoint range on either side, a split point, and a nested range at both
of its ends. -/
theorem witness_BitRangeLaws :
    ((0 : Nat) ≤ 31 ∧ (31 : Nat) ≤ 31) ∧ ((8 : Nat) ≤ 15 ∧ 15 ≤ 31) ∧ ((0 : Nat) ≤ 7 ∧ 7 ≤ 31 ∧ (7 < 8 ∨ 15 < 0)) ∧
      ((16 : Nat) ≤ 31 ∧ 31 ≤ 31 ∧ (31 < 8 ∨ 15 < 16)) ∧ ((8 : Nat) ≤ 14 ∧ 14 < 15) ∧
      ((0 : Nat) ≤ 7 ∧ 7 ≤ 15 - 8) := by decide
theorem witness_SignFillCopiesTheTopBit :
    ((30 : Nat) ≤ 30 ∧ (0x7FFFFFFF : Word).toNat < 2 ^ (30 + 1)) ∧
      ((11 : Nat) ≤ 30 ∧ (0xFEC : Word).toNat < 2 ^ (11 + 1)) := by decide
theorem witness_PlaceMasksAndShifts :
    ((1 : Nat) ≤ 12 ∧ 12 ≤ 32 ∧ 20 + 12 ≤ 32) ∧ ((1 : Nat) ≤ 32 ∧ 32 ≤ 32 ∧ 0 + 32 ≤ 32) := by
  decide
theorem witness_immediate_records :
    (record 127 31 7 31 (-2048)).wf = true ∧ (record 0 0 0 0 2047).wf = true := by decide
theorem witness_ArgumentWidthChangesNoWord :
    ((200 : Int) % 128 = 72 % 128 ∧ (33 : Int) % 32 = 1 % 32 ∧ (40 : Int) % 32 = 8 % 32 ∧
      (9 : Int) % 8 = 1 % 8 ∧ (70 : Int) % 32 = 6 % 32 ∧ (179 : Int) % 128 = 51 % 128) ∧
    ((2048 : Int) % 4096 = (-2048) % 4096) := by decide
theorem witness_RawImmediateIsTheLowTwelveBits :
    ((0 : Int) ≤ 0 ∧ (0 : Int) ≤ 2047) ∧ ((0 : Int) ≤ 2047 ∧ (2047 : Int) ≤ 2047) ∧
      ((-2048 : Int) ≤ -2048 ∧ (-2048 : Int) ≤ -1) ∧ ((-2048 : Int) ≤ -1 ∧ (-1 : Int) ≤ -1) := by
  decide
theorem witness_IUnpackRecoversTruncatedInputs :
    (-2048 : Int) ≤ -2048 ∧ (-2048 : Int) ≤ 2047 ∧
      (-2048 : Int) % 4096 = (BitVec.ofInt 32 2048).toInt % 4096 := by decide
theorem witness_EveryImmediateValueIsDecoded :
    ((-2048 : Int) ≤ -2048 ∧ (-2048 : Int) ≤ 2047) ∧ ((-2048 : Int) ≤ 2047 ∧ (2047 : Int) ≤ 2047) ∧
      (0xFFFFF : Word).toNat < 2 ^ 20 := by decide
theorem witness_EvaluationDrivesOnlyItsOwnOutputs :
    exec (.iRs1 0xFECD8313) busy = .next (showing (.rs1 27)) := rfl
theorem witness_OutcomeDependsOnInputsOnly :
    exec (.rRd 0x01738633) busy = .next (showing (.rd 12)) := rfl
theorem witness_EvaluationIsAFunctionOfTheInputs :
    busy.inputs = some (.rRd 0xDEADBEEF) ∧ evaluate (.rRd 0xDEADBEEF) = .ok (.rd 29) ∧
      (State.reset.present (.getBits 0 1 0)).inputs = some (.getBits 0 1 0) ∧
      evaluate (.getBits 0 1 0) = .error (.rangeFault .getBits 1 0) := ⟨rfl, rfl, rfl, rfl⟩
/-- Two states that ask for the same evaluation and show different outputs, and both outcomes. -/
theorem witness_StepIsTheMachineOverTheOneElementType :
    busy.inputs = (presenting busy.inputs).inputs ∧ busy ≠ presenting busy.inputs ∧
      step busy = step (presenting busy.inputs) ∧
      evaluateIn busy.block (.rRd 0xDEADBEEF) = .ok (.rd 29, {}) ∧
      evaluateIn busy.block (.getBits 0 1 0) = .error (.rangeFault .getBits 1 0) :=
  ⟨rfl, by decide, rfl, rfl, rfl⟩
theorem witness_RepeatedEvaluationChangesNothing :
    step (busy.present (.rOpcode 0x01738633)) = .next (showing (.opcode 51)) ∧
      evaluateAll [.rRd 0x01738633] (showing (.opcode 51)) = .next [some (.rd 12)] := ⟨rfl, rfl⟩
/-- Both ways a step completes: with something presented, and with nothing. -/
theorem witness_NothingPersistsAcrossSteps :
    step busy = .next (showing (.rd 29)) ∧ step State.reset = .next State.reset := ⟨rfl, rfl⟩
theorem witness_EvaluationsOfASequenceAreIndependent :
    ∀ i ∈ [Instr.iUnpack 0xFECD8313, .getBits 0xFECD8313 20 31, .setBitsToOne 0xFEC 12 31],
      legalCall i = true := by decide
theorem witness_CoherenceIsPreserved :
    (State.reset.present (.iDebugView (record 0 0 0 0 (-2048)))).Coherent ∧
      step (State.reset.present (.iDebugView (record 0 0 0 0 (-2048)))) =
        .next (showing (.iDebugView ⟨0, 0, 0, 0, 0xF800⟩)) := ⟨by decide, rfl⟩
/-- The invariant says something: an output kept beside an input, an output out of range, and an
evaluation no caller can present each break it. -/
theorem witness_incoherent_states :
    ¬ busy.Coherent ∧ ¬ (showing (.immediate 2048)).Coherent ∧ ¬ (showing (.bits 0 1)).Coherent ∧
      ¬ (State.reset.present (.iDebugView (record 0 0 0 0 2048))).Coherent := by decide
theorem witness_StepMakesThePresentedEvaluation :
    busy.inputs = some (.rRd 0xDEADBEEF) ∧ State.reset.inputs = none := ⟨rfl, rfl⟩
theorem witness_StepRunsTheDecodedFrame :
    decode [0xFECD8313, 20, 31, 0, 0, 0, 0] = .ok (.getBits 0xFECD8313 20 31) ∧
      decodeTableWord 32 0x01738633 = some (.getBits 0x01738633 0 0) := ⟨rfl, rfl⟩
theorem witness_DecodeOfEncodeIsTheEvaluation :
    (Instr.iDebugView (record 19 6 0 27 (-20))).WellFormed := by decide
theorem witness_EncodeOfDecodeIsTheFrame :
    decode [0xFFFFF800, 31, 7, 31, 127, 0, 19] =
      .ok (.iDebugView (record 127 31 7 31 (-2048))) := rfl
theorem witness_FieldReplacementByComposition : (7 : Pos) ≤ 11 := by decide
theorem witness_UnitsShowTheirValueFunctions : (0 : Pos) ≤ 31 := by decide

end Sys2Proof.Tests
end

section
/-! Scope (00_scope): an evaluation is a function of its inputs (R9), none is refused, and of a pack
input only the low bits of its field count (R7). -/

namespace Sys2Proof.Machine

/-- Integers equal modulo `2^n` have the same `n`-bit pattern. -/
theorem ofInt_eq_of_emod_eq {n : Nat} {v v' : Int} (h : v % (2 ^ n : Nat) = v' % (2 ^ n : Nat)) :
    BitVec.ofInt n v = BitVec.ofInt n v' := by
  apply BitVec.eq_of_toNat_eq
  rw [BitVec.toNat_ofInt, BitVec.toNat_ofInt, h]

theorem conclude_inBlock_ne_refused (b : Block) (result : Result) (r : Refusal) :
    conclude (inBlock b result) ≠ .refused r := by
  cases result with
  | ok o => exact nofun
  | error f => exact nofun

/-- Settles O25: a packed word is the concatenation of its inputs' patterns at the widths of their
fields, and each pattern is fixed by the input's residue. -/
theorem argumentWidthChangesNoWord : Obligations.ArgumentWidthChangesNoWord := by
  unfold Obligations.ArgumentWidthChangesNoWord
  constructor
  · intro a a' b b' c c' d d' e e' f f' ha hb hc hd he hf
    rw [rWord_eq_append, rWord_eq_append, ofInt_eq_of_emod_eq (n := 7) ha,
      ofInt_eq_of_emod_eq (n := 5) hb, ofInt_eq_of_emod_eq (n := 5) hc,
      ofInt_eq_of_emod_eq (n := 3) hd, ofInt_eq_of_emod_eq (n := 5) he,
      ofInt_eq_of_emod_eq (n := 7) hf]
  · intro a a' c c' d d' e e' f f' ha hc hd he hf
    rw [iWord_eq_append, iWord_eq_append, ofInt_eq_of_emod_eq (n := 12) ha,
      ofInt_eq_of_emod_eq (n := 5) hc, ofInt_eq_of_emod_eq (n := 3) hd,
      ofInt_eq_of_emod_eq (n := 5) he, ofInt_eq_of_emod_eq (n := 7) hf]

/-- Settles O46: an idle step leaves the state of reset, and any other is a transition of the block,
which has output values or is a fault. -/
theorem nothingIsRefused : Obligations.NothingIsRefused := by
  unfold Obligations.NothingIsRefused
  intro s r
  cases hi : s.inputs with
  | none => rw [step_none hi]; exact nofun
  | some i => rw [step_some hi]; exact conclude_inBlock_ne_refused s.block (evaluate i) r

/-- Settles O41: `exec`, and a step that presents `i`, are the transition of the state's block, and
which block that is makes no difference. -/
theorem evaluationIsAFunctionOfTheInputs : Obligations.EvaluationIsAFunctionOfTheInputs := by
  unfold Obligations.EvaluationIsAFunctionOfTheInputs
  intro i b
  have anyBlock (s : State) : conclude (evaluateIn s.block i) = conclude (inBlock b (evaluate i)) :=
    congrArg conclude (evaluateIn_congr s.block b i)
  constructor
  · intro s
    rw [exec_eq_conclude, anyBlock]
  · intro s hi
    rw [step_some hi, anyBlock]

end Sys2Proof.Machine
end

section
/-! The call frame (log entry 2): what each part of a reading answers on the ports that `encode` writes,
and what the ports were where a reading answers at all. -/

namespace Sys2Proof

/-- The three ports of a bit-range unit, as `encode` writes them, are read back. -/
theorem decodeRange_setWidth (op : Word → Pos → Pos → Instr) (word : Word) (start stop : Pos) :
    decodeRange op word (start.setWidth 32) (stop.setWidth 32) = .ok (op word start stop) := by
  rw [decodeRange, narrowPort_setWidth (by decide), narrowPort_setWidth (by decide)]
  rfl

theorem decodeRFields_setWidth (f : RFields) :
    decodeRFields (f.funct7.setWidth 32) (f.rs2.setWidth 32) (f.rs1.setWidth 32)
      (f.funct3.setWidth 32) (f.rd.setWidth 32) (f.opcode.setWidth 32) = .ok (.rDebugView f) := by
  simp only [decodeRFields, narrowPort_setWidth, Nat.reduceLeDiff]
  rfl

theorem decodeIFields_setWidth {f : IFields} (h : f.wf = true) :
    decodeIFields f.immediate (f.rs1.setWidth 32) (f.funct3.setWidth 32) (f.rd.setWidth 32)
      (f.opcode.setWidth 32) = .ok (.iDebugView f) := by
  simp only [decodeIFields, narrowPort_setWidth, Nat.reduceLeDiff]
  exact if_pos h

/-- Settles O55: the ports `encode` leaves unused are 0, and every port it drives is read back. -/
theorem decodeOfEncodeIsTheEvaluation : Obligations.DecodeOfEncodeIsTheEvaluation := by
  unfold Obligations.DecodeOfEncodeIsTheEvaluation
  intro i hwf
  cases i
  case getBits => exact decodeRange_setWidth ..
  case setBitsToOne => exact decodeRange_setWidth ..
  case setBitsToZero => exact decodeRange_setWidth ..
  case rDebugView f => exact decodeRFields_setWidth f
  case iDebugView f => exact decodeIFields_setWidth hwf
  all_goals rfl

theorem decodeRange_ok {op : Word → Pos → Pos → Instr} {word p1 p2 : Word} {i : Instr}
    (h : decodeRange op word p1 p2 = .ok i) :
    ∃ start stop : Pos, i = op word start stop ∧ start.setWidth 32 = p1 ∧ stop.setWidth 32 = p2 := by
  obtain ⟨start, hstart, h⟩ := except_bind_ok h
  obtain ⟨stop, hstop, h⟩ := except_bind_ok h
  cases h
  exact ⟨start, stop, rfl, setWidth_of_narrowPort hstart, setWidth_of_narrowPort hstop⟩

/-- Port words that are read as a record of `R_DEBUG_VIEW` are the frame of that evaluation. -/
theorem encode_of_decodeRFields {p0 p1 p2 p3 p4 p5 : Word} {i : Instr}
    (h : decodeRFields p0 p1 p2 p3 p4 p5 = .ok i) :
    encode i = [p0, p1, p2, p3, p4, p5, 18] ∧ i.WellFormed := by
  obtain ⟨funct7, h0, h⟩ := except_bind_ok h
  obtain ⟨rs2, h1, h⟩ := except_bind_ok h
  obtain ⟨rs1, h2, h⟩ := except_bind_ok h
  obtain ⟨funct3, h3, h⟩ := except_bind_ok h
  obtain ⟨rd, h4, h⟩ := except_bind_ok h
  obtain ⟨opcode, h5, h⟩ := except_bind_ok h
  cases h
  refine ⟨?_, rfl⟩
  rw [← setWidth_of_narrowPort h0, ← setWidth_of_narrowPort h1, ← setWidth_of_narrowPort h2,
    ← setWidth_of_narrowPort h3, ← setWidth_of_narrowPort h4, ← setWidth_of_narrowPort h5]
  rfl

/-- Port words that are read as a record of `I_DEBUG_VIEW` are the frame of that evaluation, which is
well formed because the reading checks the immediate. -/
theorem encode_of_decodeIFields {p0 p1 p2 p3 p4 : Word} {i : Instr}
    (h : decodeIFields p0 p1 p2 p3 p4 = .ok i) :
    encode i = [p0, p1, p2, p3, p4, 0, 19] ∧ i.WellFormed := by
  obtain ⟨rs1, h1, h⟩ := except_bind_ok h
  obtain ⟨funct3, h2, h⟩ := except_bind_ok h
  obtain ⟨rd, h3, h⟩ := except_bind_ok h
  obtain ⟨opcode, h4, h⟩ := except_bind_ok h
  dsimp only at h
  split at h
  · rename_i hwf
    cases h
    refine ⟨?_, hwf⟩
    rw [← setWidth_of_narrowPort h1, ← setWidth_of_narrowPort h2, ← setWidth_of_narrowPort h3,
      ← setWidth_of_narrowPort h4]
    rfl
  · cases h

/-- Port words that are read as a bit-range evaluation `op` are the frame of that evaluation. -/
theorem encode_of_decodeRange {op : Word → Pos → Pos → Instr} {unit p0 p1 p2 p3 p4 p5 : Word}
    {i : Instr}
    (hop : ∀ word start stop, encode (op word start stop) =
      [word, start.setWidth 32, stop.setWidth 32, 0, 0, 0, unit] ∧ (op word start stop).WellFormed)
    (h : withUnused [p3, p4, p5] (decodeRange op p0 p1 p2) = .ok i) :
    encode i = [p0, p1, p2, p3, p4, p5, unit] ∧ i.WellFormed := by
  obtain ⟨hzero, h⟩ := withUnused_ok h
  obtain ⟨start, stop, rfl, rfl, rfl⟩ := decodeRange_ok h
  obtain ⟨rfl, rfl, rfl⟩ : p3 = 0 ∧ p4 = 0 ∧ p5 = 0 := by simpa using hzero
  exact hop p0 start stop

/-- Port words that are read as an evaluation `j` on one word are the frame of `j`. -/
theorem encode_of_wordPort {j i : Instr} {unit p0 p1 p2 p3 p4 p5 : Word}
    (hj : encode j = [p0, 0, 0, 0, 0, 0, unit] ∧ j.WellFormed)
    (h : withUnused [p1, p2, p3, p4, p5] (.ok j) = .ok i) :
    encode i = [p0, p1, p2, p3, p4, p5, unit] ∧ i.WellFormed := by
  obtain ⟨hzero, h⟩ := withUnused_ok h
  obtain ⟨rfl, rfl, rfl, rfl, rfl⟩ : p1 = 0 ∧ p2 = 0 ∧ p3 = 0 ∧ p4 = 0 ∧ p5 = 0 := by
    simpa using hzero
  cases h
  exact hj

/-- Six port words that unit `unit` reads are, with the unit number, the frame of what it reads. -/
theorem encode_of_decodeUnit {unit : Nat} {p0 p1 p2 p3 p4 p5 : Word} {i : Instr}
    (h : decodeUnit unit p0 p1 p2 p3 p4 p5 = .ok i) :
    encode i = [p0, p1, p2, p3, p4, p5, BitVec.ofNat 32 unit] ∧ i.WellFormed := by
  match unit with
  | 0 | 1 | 2 => exact encode_of_decodeRange (fun _ _ _ => ⟨rfl, rfl⟩) h
  | 3 =>
    cases h
    exact ⟨rfl, rfl⟩
  | 4 | 5 | 6 | 7 | 8 | 9 | 10 | 12 | 13 | 14 | 15 | 16 | 17 =>
    exact encode_of_wordPort ⟨rfl, rfl⟩ h
  | 11 =>
    obtain ⟨hzero, h⟩ := withUnused_ok h
    obtain rfl : p5 = 0 := by simpa using hzero
    cases h
    exact ⟨rfl, rfl⟩
  | 18 => exact encode_of_decodeRFields h
  | 19 =>
    obtain ⟨hzero, h⟩ := withUnused_ok h
    obtain rfl : p5 = 0 := by simpa using hzero
    exact encode_of_decodeIFields h
  | n + 20 => cases h

theorem decode_ok {frame : List Word} {i : Instr} (h : decode frame = .ok i) :
    ∃ p0 p1 p2 p3 p4 p5 unit : Word, frame = [p0, p1, p2, p3, p4, p5, unit] ∧
      decodeUnit unit.toNat p0 p1 p2 p3 p4 p5 = .ok i := by
  unfold decode at h
  split at h
  · exact ⟨_, _, _, _, _, _, _, rfl, h⟩
  · cases h

/-- Settles O56: a frame that decodes has seven words, and its unit reads no port word but the one
`encode` writes. -/
theorem encodeOfDecodeIsTheFrame : Obligations.EncodeOfDecodeIsTheFrame := by
  unfold Obligations.EncodeOfDecodeIsTheFrame
  intro frame i h
  obtain ⟨p0, p1, p2, p3, p4, p5, unit, rfl, h⟩ := decode_ok h
  simpa using encode_of_decodeUnit h

end Sys2Proof
end

section
/-! The state (10_state): the block has none of its own (R10), so an outcome is a function of the inputs
of its evaluation, and nothing but outputs is left by a step. -/

namespace Sys2Proof.Machine

/-- An evaluation reads nothing of the state it is made in. -/
theorem exec_congr (i : Instr) (s s' : State) : exec i s = exec i s' := by
  rw [exec_eq_conclude, exec_eq_conclude, evaluateIn_congr s.block s'.block]

theorem step_eq_exec {s : State} {i : Instr} (h : s.inputs = some i) : step s = exec i s := by
  rw [step_some h, exec_eq_conclude]

theorem evalRange_ok {op : BitRangeOp} {result : Word} {start stop : Nat} {o : Output}
    (h : evalRange op result start stop = .ok o) : o = .bits result 0 := by
  obtain ⟨-, hr⟩ | ⟨-, hr⟩ := evalRange_cases op result start stop
  · rw [hr] at h
    exact (Except.ok.inj h).symm
  · rw [hr] at h
    cases h

/-- What an evaluation shows is an output of its own unit (10_state R19). -/
theorem isOf_of_evaluate_ok {i : Instr} {o : Output} (h : evaluate i = .ok o) :
    o.isOf i = true := by
  cases i
  case getBits => obtain rfl := evalRange_ok h; rfl
  case setBitsToOne => obtain rfl := evalRange_ok h; rfl
  case setBitsToZero => obtain rfl := evalRange_ok h; rfl
  all_goals
    cases h
    rfl

/-- A step that completes leaves no input, whether one was presented or not. -/
theorem step_next_inputs {s t : State} (h : step s = .next t) : t.inputs = none := by
  cases hi : s.inputs with
  | none =>
    rw [step_none hi] at h
    cases h
    exact State.reset_inputs
  | some i =>
    rw [step_eq_exec hi] at h
    obtain ⟨o, -, rfl⟩ := exec_next h
    exact showing_inputs o

theorem conclude_eq_next_iff (r : Transition) (t : State) :
    conclude r = .next t ↔ ∃ o : Output, r = .ok (o, t.block) ∧ t = showing o := by
  constructor
  · intro h
    match r with
    | .ok (o, b) =>
      rw [conclude_ok] at h
      cases h
      exact ⟨o, rfl, rfl⟩
    | .error f => cases h
  · rintro ⟨o, rfl, rfl⟩
    exact conclude_ok o _

theorem conclude_eq_fault_iff (r : Transition) (f : Fault) :
    conclude r = .fault f ↔ r = .error f := by
  constructor
  · intro h
    match r with
    | .ok (o, b) => cases h
    | .error g =>
      cases h
      rfl
  · rintro rfl
    exact conclude_error f

theorem State.eq_of_ports_eq {s s' : State} (hin : s.inputs = s'.inputs)
    (hout : s.outputs = s'.outputs) : s = s' := by
  obtain ⟨b, inputs, outputs⟩ := s
  obtain ⟨b', inputs', outputs'⟩ := s'
  cases hin
  cases hout
  rw [Block.eq b b']

/-- Settles O44: the next state is `showing` of the evaluation's own output. -/
theorem evaluationDrivesOnlyItsOwnOutputs : Obligations.EvaluationDrivesOnlyItsOwnOutputs := by
  unfold Obligations.EvaluationDrivesOnlyItsOwnOutputs
  intro i s t h
  obtain ⟨o, ho, rfl⟩ := exec_next h
  exact ⟨Block.eq _ _, showing_inputs o, o, isOf_of_evaluate_ok ho, showing_outputs o⟩

/-- Settles O48: no input is left, so the next step finds nothing presented. -/
theorem nothingPersistsAcrossSteps : Obligations.NothingPersistsAcrossSteps := by
  unfold Obligations.NothingPersistsAcrossSteps
  intro s t h
  have hin : t.inputs = none := step_next_inputs h
  exact ⟨hin, step_none hin⟩

/-- Settles O42: `exec` reads of a state only its block, of which there is one, and presenting forgets
the state it is done in. -/
theorem outcomeDependsOnInputsOnly : Obligations.OutcomeDependsOnInputsOnly := by
  unfold Obligations.OutcomeDependsOnInputsOnly
  refine ⟨Block.eq, fun i s s' => ?_⟩
  have hexec : exec i s = exec i s' := exec_congr i s s'
  have hstep : step (s.present i) = step (s'.present i) := by
    rw [State.present_eq, State.present_eq]
  exact ⟨hexec, hstep, congrArg shown hexec, congrArg faultOf hexec⟩

/-- Settles O43: a step with something presented is `conclude` of the block's transition, which loses
nothing of it. -/
theorem stepIsTheMachineOverTheOneElementType :
    Obligations.StepIsTheMachineOverTheOneElementType := by
  unfold Obligations.StepIsTheMachineOverTheOneElementType
  refine ⟨fun _ _ => State.eq_of_ports_eq, fun _ _ => step_congr, fun s i hi => ?_⟩
  rw [step_some hi]
  exact ⟨conclude_eq_next_iff _, conclude_eq_fault_iff _⟩

/-- Settles O53, by the two cases of a step. -/
theorem stepMakesThePresentedEvaluation : Obligations.StepMakesThePresentedEvaluation := by
  unfold Obligations.StepMakesThePresentedEvaluation
  exact fun s => ⟨fun _ => step_eq_exec, step_none⟩

/-- Settles O54: presenting a frame, or a table row's bits, is presenting what they decode to. -/
theorem stepRunsTheDecodedFrame : Obligations.StepRunsTheDecodedFrame := by
  unfold Obligations.StepRunsTheDecodedFrame
  constructor
  · intro frame i s h
    have hp : s.presentFrame frame = presenting (some i) := by
      rw [State.presentFrame_eq, h]
      rfl
    rw [hp]
    exact ⟨rfl, step_eq_exec (presenting_inputs _)⟩
  · intro nbits w i s h
    have hp : s.withFetchWord nbits w = presenting (some i) := by
      rw [State.withFetchWord, State.presentTableWord_eq, h]
    rw [hp]
    exact ⟨rfl, step_eq_exec (presenting_inputs _)⟩

end Sys2Proof.Machine
end

section
/-! Sequences of evaluations (20_memory): nothing is held between two evaluations of a sequence (R23),
and each one with a legal call shows what it shows alone (R26). -/

namespace Sys2Proof.Machine

theorem exec_of_evaluate_ok {i : Instr} {o : Output} (h : evaluate i = .ok o) (s : State) :
    exec i s = .next (showing o) := by
  rw [exec_eq_conclude, evaluateIn_ok h, conclude_ok]

/-- A step of the presented evaluation `i` is `exec i` in any state, the presenting one included. -/
theorem step_present (s s' : State) (i : Instr) : step (s.present i) = exec i s' := by
  rw [State.present_eq, step_eq_exec (presenting_inputs _), exec_congr i _ s']

/-- On the 5-bit ports a bit-range evaluation has a value exactly when its caller kept the one duty (R138). -/
theorem evalRange_ok_iff (op : BitRangeOp) (result : Word) (start stop : Pos) :
    (∃ o, evalRange op result start.toNat stop.toNat = .ok o) ↔ decide (start ≤ stop) = true := by
  rw [decide_eq_true_iff, ← legalRange_pos_iff]
  constructor
  · rintro ⟨o, h⟩
    obtain ⟨hlegal, -⟩ | ⟨-, hfault⟩ := evalRange_cases op result start.toNat stop.toNat
    · exact hlegal
    · rw [hfault] at h
      cases h
  · exact fun hlegal => ⟨_, evalRange_legal hlegal op result⟩

/-- An evaluation has a value exactly when its call is legal (R121, R138). -/
theorem evaluate_ok_iff_legalCall (i : Instr) : (∃ o, evaluate i = .ok o) ↔ legalCall i = true := by
  cases i
  case getBits => exact evalRange_ok_iff ..
  case setBitsToOne => exact evalRange_ok_iff ..
  case setBitsToZero => exact evalRange_ok_iff ..
  all_goals exact ⟨fun _ => rfl, fun _ => ⟨_, rfl⟩⟩

@[simp] theorem evaluateAll_nil (s : State) : evaluateAll [] s = .next [] := rfl

/-- A sequence has a result exactly when its first evaluation completes and the rest has a result from
there. -/
theorem evaluateAll_cons_eq_next_iff (i : Instr) (rest : List Instr) (s : State)
    (os : List (Option Output)) :
    evaluateAll (i :: rest) s = .next os ↔
      ∃ t os', step (s.present i) = .next t ∧ evaluateAll rest t = .next os' ∧
        os = t.outputs :: os' := by
  rw [evaluateAll]
  cases step (s.present i) with
  | next t => cases hrest : evaluateAll rest t <;> simp [hrest, eq_comm]
  | fault f => simp
  | refused r => simp

/-- A sequence reads nothing of the state it begins in: every call of it is presented anew. -/
theorem evaluateAll_congr (calls : List Instr) (s s' : State) :
    evaluateAll calls s = evaluateAll calls s' := by
  cases calls with
  | nil => rfl
  | cons i rest => rw [evaluateAll, evaluateAll, State.present_eq, State.present_eq]

/-- Two sequences that have results have, one after the other, the results of both: the second does not
depend on what the first left. -/
theorem evaluateAll_append_next {before after : List Instr} {os os' : List (Option Output)}
    {s s' : State}
    (hbefore : evaluateAll before s = .next os) (hafter : evaluateAll after s' = .next os') :
    evaluateAll (before ++ after) s = .next (os ++ os') := by
  induction before generalizing s os with
  | nil =>
    cases hbefore
    rw [List.nil_append, List.nil_append, evaluateAll_congr after s s', hafter]
  | cons i rest ih =>
    obtain ⟨t, shownByRest, hstep, hrest, rfl⟩ :=
      (evaluateAll_cons_eq_next_iff i rest s os).1 hbefore
    exact (evaluateAll_cons_eq_next_iff ..).2 ⟨t, _, hstep, ih hrest, rfl⟩

/-- Settles O47: presenting forgets the state, and the evaluations made in between leave nothing that
the repeated one reads. -/
theorem repeatedEvaluationChangesNothing : Obligations.RepeatedEvaluationChangesNothing := by
  unfold Obligations.RepeatedEvaluationChangesNothing
  intro i s t h
  have again : step (t.present i) = .next t := by
    rw [step_present t s, ← step_present s s, h]
  have alone : evaluateAll [i] t = .next [t.outputs] :=
    (evaluateAll_cons_eq_next_iff ..).2 ⟨t, [], again, evaluateAll_nil t, rfl⟩
  exact ⟨again, fun between os hbetween => evaluateAll_append_next hbetween alone⟩

/-- Settles O49, by induction on the calls: a legal call completes and shows its own value, whatever
state the calls before it left. -/
theorem evaluationsOfASequenceAreIndependent :
    Obligations.EvaluationsOfASequenceAreIndependent := by
  unfold Obligations.EvaluationsOfASequenceAreIndependent
  intro calls s hlegal
  induction calls generalizing s with
  | nil => exact evaluateAll_nil s
  | cons i rest ih =>
    obtain ⟨hi, hrest⟩ := List.forall_mem_cons.1 hlegal
    obtain ⟨o, ho⟩ := (evaluate_ok_iff_legalCall i).2 hi
    have hstep : step (s.present i) = .next (showing o) := by
      rw [step_present s s, exec_of_evaluate_ok ho]
    have halone : shown (exec i State.reset) = some o := by
      rw [exec_of_evaluate_ok ho]
      rfl
    refine (evaluateAll_cons_eq_next_iff ..).2 ⟨_, _, hstep, ih _ hrest, ?_⟩
    rw [List.map_cons, halone, showing_outputs]

end Sys2Proof.Machine
end

section
/-! Encoding (30_encoding): both layouts partition the word (R34) and share their low fields (R35), every
word is the packed word of its own fields (R39), and the immediate field decodes to every value of its
range (R45). -/

namespace Sys2Proof.Machine

/-- Settles O14, by looking at the eleven descriptors and the 32 bit positions. -/
theorem layoutsPartitionTheWord : Obligations.LayoutsPartitionTheWord := by
  unfold Obligations.LayoutsPartitionTheWord
  refine ⟨?widths, ?rBits, ?iBits, rfl, rfl⟩
  case widths => decide
  case rBits => decide
  case iBits => decide

theorem funct7Of_toNat (word : Word) : (funct7Of word).toNat = word.toNat / 2 ^ 25 := by
  rw [funct7Of_eq_slice, BitVec.extractLsb'_toNat, Nat.shiftRight_eq_div_pow]
  omega

theorem rs2Of_toNat (word : Word) : (rs2Of word).toNat = word.toNat / 2 ^ 20 % 32 := by
  rw [rs2Of_eq_slice, BitVec.extractLsb'_toNat, Nat.shiftRight_eq_div_pow]

/-- The raw immediate of the I-type layout is `funct7 ‖ rs2` of the R-type layout (R35). -/
theorem rawImmediate_eq_funct7Of_rs2Of (word : Word) :
    word.toNat / 2 ^ 20 = (funct7Of word).toNat * 32 + (rs2Of word).toNat := by
  rw [funct7Of_toNat, rs2Of_toNat]
  omega

/-- Settles O15: both formats read the shared fields with the same value functions. -/
theorem formatsShareTheirLowFields : Obligations.FormatsShareTheirLowFields := by
  unfold Obligations.FormatsShareTheirLowFields
  intro word s
  refine ⟨?_, ?_, ?_, ?_, funct7Of word, rs2Of word, exec_rFunct7 word s, exec_rRs2 word s,
    rawImmediate_eq_funct7Of_rs2Of word⟩
  · rw [exec_iOpcode, exec_rOpcode]
  · rw [exec_iRd, exec_rRd]
  · rw [exec_iFunct3, exec_rFunct3]
  · rw [exec_iRs1, exec_rRs1]

/-- The word that `repackR f` packs (41_r_type_codec R79). -/
def repackedR (f : RFields) : Word :=
  rWord f.funct7.toNat f.rs2.toNat f.rs1.toNat f.funct3.toNat f.rd.toNat f.opcode.toNat

/-- The word that `repackI f` packs (42_i_type_codec R100). -/
def repackedI (f : IFields) : Word :=
  iWord f.immediate.toInt f.rs1.toNat f.funct3.toNat f.rd.toNat f.opcode.toNat

theorem exec_repackR (f : RFields) (s : State) :
    exec (repackR f) s = .next (showing (.word (repackedR f))) := by
  rw [repackR, exec_rPack, repackedR]
  simp only [BitVec.toNat_setWidth_of_le, Nat.reduceLeDiff]

theorem exec_repackI (f : IFields) (s : State) :
    exec (repackI f) s = .next (showing (.word (repackedI f))) := by
  rw [repackI, exec_iPack, repackedI]
  simp only [BitVec.toNat_setWidth_of_le, Nat.reduceLeDiff]

theorem next_showing_word_inj {v w : Word} :
    (Host.Outcome.next (showing (.word v)) : Host.Outcome State Fault Refusal) =
      .next (showing (.word w)) ↔ v = w := by
  constructor
  · intro h
    cases h
    rfl
  · rintro rfl
    rfl

/-- The pattern of a field value's number, at the field's own width, is the field value. -/
theorem ofInt_toNat {n : Nat} (v : BitVec n) : BitVec.ofInt n (v.toNat : Int) = v := by
  rw [BitVec.ofInt_natCast, BitVec.ofNat_toNat, BitVec.setWidth_eq]

/-- Unpacking a packed record answers the record. -/
theorem rFieldsOf_repackedR (f : RFields) : rFieldsOf (repackedR f) = f := by
  rw [rFieldsOf, repackedR, opcodeOf_rWord, rdOf_rWord, funct3Of_rWord, rs1Of_rWord, rs2Of_rWord,
    funct7Of_rWord]
  simp only [ofInt_toNat]

/-- Packing the fields of a word answers the word: the six slices are adjacent. -/
theorem repackedR_rFieldsOf (word : Word) : repackedR (rFieldsOf word) = word := by
  rw [repackedR, rFieldsOf, rWord_eq_append]
  simp only [ofInt_toNat, opcodeOf_eq_slice, rdOf_eq_slice, funct3Of_eq_slice, rs1Of_eq_slice,
    rs2Of_eq_slice, funct7Of_eq_slice]
  apply BitVec.eq_of_getLsbD_eq
  intro k hk
  simp only [BitVec.getLsbD_extractLsb', BitVec.getLsbD_append]
  interval_cases k <;> simp

theorem repackedR_eq_iff (f : RFields) (word : Word) : repackedR f = word ↔ f = rFieldsOf word := by
  constructor
  · rintro rfl
    exact (rFieldsOf_repackedR f).symm
  · rintro rfl
    exact repackedR_rFieldsOf word

/-- Twelve bits hold every number of the immediate's range. -/
theorem toInt_ofInt_immediate {k : Int} (hmin : -2048 ≤ k) (hmax : k ≤ 2047) :
    (BitVec.ofInt 12 k).toInt = k :=
  BitVec.toInt_ofInt_eq_self (by decide) hmin (Int.lt_of_le_of_lt hmax (by decide))

/-- The number decoded from a word is that of its twelve-bit slice (R98). -/
theorem immediateOf_toInt (word : Word) :
    (immediateOf word).toInt = (word.extractLsb' 20 12).toInt := by
  rw [immediateOf_eq_signExtend, BitVec.toInt_signExtend_of_le (by decide)]

theorem iFields_wf_iff (f : IFields) :
    f.wf = true ↔ -2048 ≤ f.immediate.toInt ∧ f.immediate.toInt ≤ 2047 := by
  rw [IFields.wf, Bool.and_eq_true, decide_eq_true_iff, decide_eq_true_iff]

/-- What `I_UNPACK` answers has its immediate in range (R96). -/
theorem iFieldsOf_wf (word : Word) : (iFieldsOf word).wf = true := by
  rw [iFields_wf_iff, iFieldsOf, immediateOf_toInt]
  exact ⟨BitVec.le_toInt _, BitVec.toInt_le⟩

/-- The immediate of a well-formed record is the sign extension of its low twelve bits. -/
theorem signExtend_immediate_of_wf {f : IFields} (h : f.wf = true) :
    (BitVec.ofInt 12 f.immediate.toInt).signExtend 32 = f.immediate := by
  obtain ⟨hmin, hmax⟩ := (iFields_wf_iff f).1 h
  apply BitVec.eq_of_toInt_eq
  rw [BitVec.toInt_signExtend_of_le (by decide), toInt_ofInt_immediate hmin hmax]

/-- Unpacking a packed well-formed record answers the record. -/
theorem iFieldsOf_repackedI {f : IFields} (h : f.wf = true) : iFieldsOf (repackedI f) = f := by
  rw [iFieldsOf, repackedI, opcodeOf_iWord, rdOf_iWord, funct3Of_iWord, rs1Of_iWord,
    immediateOf_iWord, signExtend_immediate_of_wf h]
  simp only [ofInt_toNat]

/-- Packing the fields of a word answers the word: the five slices are adjacent. -/
theorem repackedI_iFieldsOf (word : Word) : repackedI (iFieldsOf word) = word := by
  rw [repackedI, iFieldsOf, iWord_eq_append, immediateOf_toInt, BitVec.ofInt_toInt]
  simp only [ofInt_toNat, opcodeOf_eq_slice, rdOf_eq_slice, funct3Of_eq_slice, rs1Of_eq_slice]
  apply BitVec.eq_of_getLsbD_eq
  intro k hk
  simp only [BitVec.getLsbD_extractLsb', BitVec.getLsbD_append]
  interval_cases k <;> simp

theorem repackedI_eq_iff {f : IFields} (h : f.wf = true) (word : Word) :
    repackedI f = word ↔ f = iFieldsOf word := by
  constructor
  · rintro rfl
    exact (iFieldsOf_repackedI h).symm
  · rintro rfl
    exact repackedI_iFieldsOf word

/-- Settles O16: in each format the one record that packs the word is the one its unpack answers. -/
theorem everyWordIsLegalInBothFormats : Obligations.EveryWordIsLegalInBothFormats := by
  unfold Obligations.EveryWordIsLegalInBothFormats
  intro word s
  refine ⟨⟨_, exec_rUnpack word s⟩, ⟨_, exec_iUnpack word s⟩, ⟨rFieldsOf word, fun g => ?_⟩,
    ⟨iFieldsOf word, iFieldsOf_wf word, fun g hg => ?_⟩⟩
  · rw [exec_repackR, next_showing_word_inj, repackedR_eq_iff]
  · rw [exec_repackI, next_showing_word_inj, repackedI_eq_iff hg]

/-- The immediate packed into a word is decoded from it, over its whole range. -/
theorem immediateOf_iWord_toInt {immediate : Int} (hmin : -2048 ≤ immediate)
    (hmax : immediate ≤ 2047) (rs1 funct3 rd opcode : Int) :
    (immediateOf (iWord immediate rs1 funct3 rd opcode)).toInt = immediate := by
  rw [immediateOf_iWord, BitVec.toInt_signExtend_of_le (by decide),
    toInt_ofInt_immediate hmin hmax]

/-- The bits of `word[19:0]` do not enter the immediate. -/
theorem immediateOf_or_low {low : Word} (hlow : low.toNat < 2 ^ 20) (word : Word) :
    immediateOf (word ||| low) = immediateOf word := by
  have clear (j : Nat) (hj : 20 ≤ j) : low.getLsbD j = false := by
    rw [← BitVec.testBit_toNat]
    exact Nat.testBit_lt_two_pow (hlow.trans_le (Nat.pow_le_pow_right (by decide) hj))
  apply BitVec.eq_of_getLsbD_eq
  intro k _
  rw [immediateOf_getLsbD, immediateOf_getLsbD, BitVec.getLsbD_or, BitVec.getLsbD_or,
    clear (20 + k) (by omega), clear 31 (by decide), Bool.or_false, Bool.or_false]

/-- Settles O36: a value of the range is decoded from the word it is packed into, and a pattern of the
top twelve bits decides the immediate alone. -/
theorem everyImmediateValueIsDecoded : Obligations.EveryImmediateValueIsDecoded := by
  unfold Obligations.EveryImmediateValueIsDecoded
  constructor
  · intro k hmin hmax s
    exact ⟨iWord k 0 0 0 0, _, exec_iImmediate _ s, immediateOf_iWord_toInt hmin hmax ..⟩
  · intro low s hlow
    have hmin : immediateOf 0x80000000 = BitVec.ofInt 32 (-2048) := by decide
    have hmax : immediateOf 0x7FF00000 = BitVec.ofInt 32 2047 := by decide
    have hones : immediateOf 0xFFF00000 = BitVec.ofInt 32 (-1) := by decide
    simp only [exec_iImmediate, immediateOf_or_low hlow, hmin, hmax, hones, and_self]

end Sys2Proof.Machine
end

section
/-! The bit-range primitive (40_bit_range_primitives): the masks (R51, R52), the three operations bit by
bit (R53 to R55) and their laws (R60), `PLACE` (R56) and `SIGN_FILL` (R57). -/

namespace Sys2Proof.Machine

/-! What the three units answer at the ports, on a legal range and on one upside down. -/

theorem exec_getBits_of_le {start stop : Pos} (h : start ≤ stop) (word : Word) (s : State) :
    exec (.getBits word start stop) s =
      .next (showing (.bits (extractBits word start.toNat stop.toNat) 0)) := by
  rw [exec_getBits, conclude_evalRange_legal ((legalRange_pos_iff start stop).2 h)]

theorem exec_setBitsToOne_of_le {start stop : Pos} (h : start ≤ stop) (word : Word) (s : State) :
    exec (.setBitsToOne word start stop) s =
      .next (showing (.bits (forceOnes word start.toNat stop.toNat) 0)) := by
  rw [exec_setBitsToOne, conclude_evalRange_legal ((legalRange_pos_iff start stop).2 h)]

theorem exec_setBitsToZero_of_le {start stop : Pos} (h : start ≤ stop) (word : Word) (s : State) :
    exec (.setBitsToZero word start stop) s =
      .next (showing (.bits (forceZeros word start.toNat stop.toNat) 0)) := by
  rw [exec_setBitsToZero, conclude_evalRange_legal ((legalRange_pos_iff start stop).2 h)]

theorem exec_getBits_of_lt {start stop : Pos} (h : stop < start) (word : Word) (s : State) :
    exec (.getBits word start stop) s =
      .fault (.rangeFault .getBits start.toNat stop.toNat) := by
  rw [exec_getBits, conclude_evalRange_illegal ((legalRange_pos_false_iff start stop).2 h)]

theorem exec_setBitsToOne_of_lt {start stop : Pos} (h : stop < start) (word : Word) (s : State) :
    exec (.setBitsToOne word start stop) s =
      .fault (.rangeFault .setBitsToOne start.toNat stop.toNat) := by
  rw [exec_setBitsToOne, conclude_evalRange_illegal ((legalRange_pos_false_iff start stop).2 h)]

theorem exec_setBitsToZero_of_lt {start stop : Pos} (h : stop < start) (word : Word) (s : State) :
    exec (.setBitsToZero word start stop) s =
      .fault (.rangeFault .setBitsToZero start.toNat stop.toNat) := by
  rw [exec_setBitsToZero, conclude_evalRange_illegal ((legalRange_pos_false_iff start stop).2 h)]

/-- Two ports in order are a range of numbers `0 ≤ start ≤ stop ≤ 31` (D3). -/
theorem pos_range_of_le {start stop : Pos} (h : start ≤ stop) :
    start.toNat ≤ stop.toNat ∧ stop.toNat ≤ 31 :=
  (legalRange_iff ..).1 ((legalRange_pos_iff start stop).2 h)

/-- Settles O60: each unit answers its shared operation on its value function. -/
theorem unitsShowTheirValueFunctions : Obligations.UnitsShowTheirValueFunctions := by
  unfold Obligations.UnitsShowTheirValueFunctions
  intro s
  refine ⟨fun word start stop h => ⟨?_, ?_, ?_⟩, fun a b c d e f => exec_rPack a b c d e f s,
    fun a c d e f => exec_iPack a c d e f s⟩
  · exact exec_getBits_of_le h word s
  · exact exec_setBitsToOne_of_le h word s
  · exact exec_setBitsToZero_of_le h word s

/-! The masks. -/

theorem mask_toNat {n : Nat} (h : n ≤ 32) : (mask n).toNat = 2 ^ n - 1 := by
  have hp : 2 ^ n ≤ 2 ^ 32 := Nat.pow_le_pow_right (by decide) h
  rw [mask, BitVec.toNat_ofNat, Nat.mod_eq_of_lt (by omega)]

/-- A range of ones, as the difference of the powers at its two ends. -/
theorem shiftLeft_two_pow_sub_one {start stop : Nat} (h : start ≤ stop) :
    (2 ^ (stop - start + 1) - 1) <<< start = 2 ^ (stop + 1) - 2 ^ start := by
  rw [Nat.shiftLeft_eq, Nat.sub_mul, ← Nat.pow_add, Nat.one_mul,
    show stop - start + 1 + start = stop + 1 by omega]

theorem rangeMask_eq_ofNat {start stop : Nat} (h : start ≤ stop) :
    rangeMask start stop = BitVec.ofNat 32 (2 ^ (stop + 1) - 2 ^ start) := by
  rw [rangeMask, shiftLeft_two_pow_sub_one h]

theorem rangeMask_toNat {start stop : Nat} (h : start ≤ stop) (h' : stop ≤ 31) :
    (rangeMask start stop).toNat = 2 ^ (stop + 1) - 2 ^ start := by
  have hp : 2 ^ (stop + 1) ≤ 2 ^ 32 := Nat.pow_le_pow_right (by decide) (by omega)
  have hpos : 0 < 2 ^ start := Nat.two_pow_pos start
  rw [rangeMask_eq_ofNat h, BitVec.toNat_ofNat, Nat.mod_eq_of_lt (by omega)]

theorem rangeMask_eq_mask_shiftLeft (start stop : Nat) :
    rangeMask start stop = mask (stop - start + 1) <<< start := by
  apply BitVec.eq_of_toNat_eq
  rw [rangeMask, mask, BitVec.toNat_shiftLeft, BitVec.toNat_ofNat, BitVec.toNat_ofNat,
    Nat.shiftLeft_eq, Nat.shiftLeft_eq, Nat.mod_mul_mod]

/-- Settles O7, by the mask's number and its bits. -/
theorem masksAreTheSpecifiedPatterns : Obligations.MasksAreTheSpecifiedPatterns := by
  unfold Obligations.MasksAreTheSpecifiedPatterns
  refine ⟨fun _ => mask_toNat, fun start stop h h' => ⟨?_, ?_, ?_⟩⟩
  · exact rangeMask_toNat h h'
  · exact rangeMask_eq_mask_shiftLeft start stop
  · exact fun k hk => rangeMask_getLsbD_legal h hk

/-! The three operations bit by bit on a legal range, at every position. -/

theorem rangeMask_getLsbD_eq_decide {start stop : Nat} (h : start ≤ stop) (h' : stop ≤ 31) (k : Nat) :
    (rangeMask start stop).getLsbD k = decide (start ≤ k ∧ k ≤ stop) := by
  by_cases hk : k < 32
  · exact rangeMask_getLsbD_legal h hk
  · have houtside : ¬ (start ≤ k ∧ k ≤ stop) := by omega
    rw [BitVec.getLsbD_of_ge _ _ (by omega), decide_eq_false houtside]

theorem forceOnes_getLsbD_eq_ite {start stop : Nat} (h : start ≤ stop) (h' : stop ≤ 31) (word : Word)
    (k : Nat) : (forceOnes word start stop).getLsbD k =
      if start ≤ k ∧ k ≤ stop then true else word.getLsbD k := by
  rw [forceOnes_getLsbD, rangeMask_getLsbD_eq_decide h h']
  by_cases hin : start ≤ k ∧ k ≤ stop
  · rw [if_pos hin, decide_eq_true hin, Bool.or_true]
  · rw [if_neg hin, decide_eq_false hin, Bool.or_false]

theorem forceZeros_getLsbD_eq_ite {start stop : Nat} (h : start ≤ stop) (h' : stop ≤ 31) (word : Word)
    (k : Nat) : (forceZeros word start stop).getLsbD k =
      if start ≤ k ∧ k ≤ stop then false else word.getLsbD k := by
  have hword : (word.getLsbD k && decide (k < 32)) = word.getLsbD k := by
    by_cases hk : k < 32
    · rw [decide_eq_true hk, Bool.and_true]
    · rw [BitVec.getLsbD_of_ge word k (by omega), Bool.false_and]
  rw [forceZeros_getLsbD, rangeMask_getLsbD_eq_decide h h', ← Bool.and_assoc, hword]
  by_cases hin : start ≤ k ∧ k ≤ stop
  · rw [if_pos hin, decide_eq_true hin, Bool.not_true, Bool.and_false]
  · rw [if_neg hin, decide_eq_false hin, Bool.not_false, Bool.and_true]

theorem extractBits_eq_ofNat {start stop : Nat} (word : Word) (h : start ≤ stop) (h' : stop ≤ 31) :
    extractBits word start stop =
      BitVec.ofNat 32 (word.toNat / 2 ^ start % 2 ^ (stop - start + 1)) := by
  rw [← extractBits_toNat word h h', BitVec.ofNat_toNat, BitVec.setWidth_eq]

/-- Settles O1, by the extracted range's number and its bits. -/
theorem getBitsAnswersTheBitRange : Obligations.GetBitsAnswersTheBitRange := by
  unfold Obligations.GetBitsAnswersTheBitRange
  intro word start stop s
  refine ⟨fun h => ?_, fun h => exec_getBits_of_lt h word s⟩
  obtain ⟨hle, h31⟩ := pos_range_of_le h
  rw [← extractBits_eq_ofNat word hle h31]
  refine ⟨exec_getBits_of_le h word s, fun k _ => ?_⟩
  rw [extractBits_getLsbD, Bool.and_comm]
  simp only [Nat.lt_succ_iff]

/-- Settles O2, by the mask's number and the forced range's bits. -/
theorem setBitsToOneForcesTheRange : Obligations.SetBitsToOneForcesTheRange := by
  unfold Obligations.SetBitsToOneForcesTheRange
  intro word start stop s
  refine ⟨fun h => ?_, fun h => exec_setBitsToOne_of_lt h word s⟩
  obtain ⟨hle, h31⟩ := pos_range_of_le h
  refine ⟨_, exec_setBitsToOne_of_le h word s, ?_, fun k _ => forceOnes_getLsbD_eq_ite hle h31 word k⟩
  rw [forceOnes, rangeMask_eq_ofNat hle]

/-- Settles O3, by the mask's number and the cleared range's bits. -/
theorem setBitsToZeroClearsTheRange : Obligations.SetBitsToZeroClearsTheRange := by
  unfold Obligations.SetBitsToZeroClearsTheRange
  intro word start stop s
  refine ⟨fun h => ?_, fun h => exec_setBitsToZero_of_lt h word s⟩
  obtain ⟨hle, h31⟩ := pos_range_of_le h
  refine ⟨_, exec_setBitsToZero_of_le h word s, ?_,
    fun k _ => forceZeros_getLsbD_eq_ite hle h31 word k⟩
  rw [forceZeros, rangeMask_eq_ofNat hle]

/-! The full-width range. -/

theorem rangeMask_full : rangeMask 0 31 = BitVec.allOnes 32 := by decide

theorem extractBits_full (word : Word) : extractBits word 0 31 = word := by
  have hmask : mask (31 - 0 + 1) = BitVec.allOnes 32 := by decide
  rw [extractBits, hmask, BitVec.and_allOnes, BitVec.ushiftRight_zero]

theorem forceOnes_full (word : Word) : forceOnes word 0 31 = 0xFFFFFFFF := by
  rw [forceOnes, rangeMask_full, BitVec.or_allOnes]
  rfl

theorem forceZeros_full (word : Word) : forceZeros word 0 31 = 0 := by
  rw [forceZeros, rangeMask_full, BitVec.not_allOnes, BitVec.and_zero]
  rfl

theorem exec_getBits_full (word : Word) (s : State) :
    exec (.getBits word 0 31) s = .next (showing (.bits word 0)) := by
  have hfull : extractBits word (0 : Pos).toNat (31 : Pos).toNat = word := extractBits_full word
  rw [exec_getBits_of_le (by decide), hfull]

theorem exec_setBitsToOne_full (word : Word) (s : State) :
    exec (.setBitsToOne word 0 31) s = .next (showing (.bits 0xFFFFFFFF 0)) := by
  have hfull : forceOnes word (0 : Pos).toNat (31 : Pos).toNat = 0xFFFFFFFF := forceOnes_full word
  rw [exec_setBitsToOne_of_le (by decide), hfull]

theorem exec_setBitsToZero_full (word : Word) (s : State) :
    exec (.setBitsToZero word 0 31) s = .next (showing (.bits 0 0)) := by
  have hfull : forceZeros word (0 : Pos).toNat (31 : Pos).toNat = 0 := forceZeros_full word
  rw [exec_setBitsToZero_of_le (by decide), hfull]

/-- Settles O8: taking a remainder by a power of two is masking. -/
theorem getBitsIsShiftAndMask : Obligations.GetBitsIsShiftAndMask := by
  unfold Obligations.GetBitsIsShiftAndMask
  intro word s
  constructor
  · intro start stop h
    obtain ⟨hle, h31⟩ := pos_range_of_le h
    rw [exec_getBits_of_le h, extractBits_eq_ofNat word hle h31, Nat.and_two_pow_sub_one_eq_mod,
      Nat.shiftRight_eq_div_pow]
  · exact exec_getBits_full word s

/-- Settles O9, by the full-width mask, which is all ones. -/
theorem fullWidthRangeCoversTheWord : Obligations.FullWidthRangeCoversTheWord := by
  unfold Obligations.FullWidthRangeCoversTheWord
  exact fun word s =>
    ⟨exec_getBits_full word s, exec_setBitsToOne_full word s, exec_setBitsToZero_full word s⟩

/-! Laws of the forcings. -/

theorem forceOnes_forceOnes (w : Word) (s e : Nat) :
    forceOnes (forceOnes w s e) s e = forceOnes w s e := by
  rw [forceOnes, forceOnes, BitVec.or_assoc, BitVec.or_self]

theorem forceZeros_forceZeros (w : Word) (s e : Nat) :
    forceZeros (forceZeros w s e) s e = forceZeros w s e := by
  rw [forceZeros, forceZeros, BitVec.and_assoc, BitVec.and_self]

/-- Settles O10: the mask is ORed, or its complement ANDed, twice. -/
theorem forcingIsIdempotent : Obligations.ForcingIsIdempotent := by
  unfold Obligations.ForcingIsIdempotent
  intro word start stop s s' h
  constructor
  · refine ⟨_, exec_setBitsToOne_of_le h word s, ?_⟩
    rw [exec_setBitsToOne_of_le h, forceOnes_forceOnes]
  · refine ⟨_, exec_setBitsToZero_of_le h word s, ?_⟩
    rw [exec_setBitsToZero_of_le h, forceZeros_forceZeros]

theorem forceZeros_eq_not_forceOnes_not (w : Word) (s e : Nat) :
    forceZeros w s e = ~~~ forceOnes (~~~ w) s e := by
  rw [forceZeros, forceOnes, BitVec.not_or, BitVec.not_not]

/-- The last of two forcings of one range wins, here the clearing. -/
theorem forceZeros_forceOnes (w : Word) (s e : Nat) :
    forceZeros (forceOnes w s e) s e = forceZeros w s e := by
  rw [forceZeros, forceOnes, BitVec.and_or_distrib_right, BitVec.and_not_self]
  exact BitVec.or_zero

/-- The last of two forcings of one range wins, here the setting. -/
theorem forceOnes_forceZeros {s e : Nat} (h : s ≤ e) (h' : e ≤ 31) (w : Word) :
    forceOnes (forceZeros w s e) s e = forceOnes w s e := by
  apply BitVec.eq_of_getLsbD_eq
  intro k _
  rw [forceOnes_getLsbD_eq_ite h h', forceOnes_getLsbD_eq_ite h h', forceZeros_getLsbD_eq_ite h h']
  split
  · rfl
  · rfl

theorem forceOnes_comm (w : Word) (s e a b : Nat) :
    forceOnes (forceOnes w s e) a b = forceOnes (forceOnes w a b) s e := by
  simp only [forceOnes, BitVec.or_assoc, BitVec.or_comm (rangeMask s e)]

theorem forceZeros_comm (w : Word) (s e a b : Nat) :
    forceZeros (forceZeros w s e) a b = forceZeros (forceZeros w a b) s e := by
  simp only [forceZeros, BitVec.and_assoc, BitVec.and_comm (~~~ rangeMask s e)]

/-- Setting one range and clearing another commute where no bit lies in both. -/
theorem forceOnes_forceZeros_comm {s e a b : Nat} (h : s ≤ e) (h' : e ≤ 31) (hab : a ≤ b)
    (hb : b ≤ 31) (hdisjoint : b < s ∨ e < a) (w : Word) :
    forceOnes (forceZeros w s e) a b = forceZeros (forceOnes w a b) s e := by
  apply BitVec.eq_of_getLsbD_eq
  intro k _
  rw [forceOnes_getLsbD_eq_ite hab hb, forceZeros_getLsbD_eq_ite h h', forceZeros_getLsbD_eq_ite h h',
    forceOnes_getLsbD_eq_ite hab hb]
  by_cases hin : a ≤ k ∧ k ≤ b
  · have hout : ¬ (s ≤ k ∧ k ≤ e) := by omega
    rw [if_pos hin, if_neg hout, if_pos hin]
  · rw [if_neg hin, if_neg hin]

/-! Laws of the extraction. -/

/-- An extraction reads only the bits of its range. -/
theorem extractBits_congr {v w : Word} {s e : Nat} (h : s ≤ e)
    (hbits : ∀ k, s ≤ k → k ≤ e → v.getLsbD k = w.getLsbD k) :
    extractBits v s e = extractBits w s e := by
  apply BitVec.eq_of_getLsbD_eq
  intro k _
  rw [extractBits_getLsbD, extractBits_getLsbD]
  by_cases hk : k < e - s + 1
  · rw [hbits (s + k) (by omega) (by omega)]
  · simp only [hk, decide_false, Bool.and_false]

theorem extractBits_or (v w : Word) (s e : Nat) :
    extractBits (v ||| w) s e = extractBits v s e ||| extractBits w s e := by
  rw [extractBits, BitVec.ushiftRight_or_distrib, BitVec.and_or_distrib_right, extractBits,
    extractBits]

/-- A range forced to ones reads as all ones. -/
theorem extractBits_forceOnes {s e : Nat} (h : s ≤ e) (h' : e ≤ 31) (w : Word) :
    extractBits (forceOnes w s e) s e = mask (e - s + 1) := by
  apply BitVec.eq_of_getLsbD_eq
  intro k hk
  rw [extractBits_getLsbD, mask_getLsbD, forceOnes_getLsbD_eq_ite h h', decide_eq_true hk,
    Bool.true_and]
  by_cases hin : k < e - s + 1
  · rw [if_pos (by omega), Bool.true_and]
  · rw [decide_eq_false hin, Bool.and_false]

/-- A cleared range reads as zero. -/
theorem extractBits_forceZeros {s e : Nat} (h : s ≤ e) (h' : e ≤ 31) (w : Word) :
    extractBits (forceZeros w s e) s e = 0#32 := by
  have hclear : extractBits (forceZeros w s e) s e = extractBits 0#32 s e := by
    refine extractBits_congr h fun k hs he => ?_
    rw [forceZeros_getLsbD_eq_ite h h', if_pos ⟨hs, he⟩, BitVec.getLsbD_zero]
  rw [hclear, extractBits, BitVec.zero_ushiftRight, BitVec.zero_and]

theorem extractBits_forceOnes_of_disjoint {s e a b : Nat} (h : s ≤ e) (h' : e ≤ 31) (hab : a ≤ b)
    (hdisjoint : b < s ∨ e < a) (w : Word) :
    extractBits (forceOnes w s e) a b = extractBits w a b :=
  extractBits_congr hab fun k _ _ => by
    rw [forceOnes_getLsbD_eq_ite h h', if_neg (by omega)]

theorem extractBits_forceZeros_of_disjoint {s e a b : Nat} (h : s ≤ e) (h' : e ≤ 31) (hab : a ≤ b)
    (hdisjoint : b < s ∨ e < a) (w : Word) :
    extractBits (forceZeros w s e) a b = extractBits w a b :=
  extractBits_congr hab fun k _ _ => by
    rw [forceZeros_getLsbD_eq_ite h h', if_neg (by omega)]

/-- A word is what is outside a range and what is in it, moved back into place. -/
theorem forceZeros_or_extractBits_shiftLeft {s e : Nat} (h : s ≤ e) (h' : e ≤ 31) (w : Word) :
    forceZeros w s e ||| (extractBits w s e <<< s) = w := by
  apply BitVec.eq_of_getLsbD_eq
  intro k hk
  rw [BitVec.getLsbD_or, forceZeros_getLsbD_eq_ite h h', BitVec.getLsbD_shiftLeft,
    extractBits_getLsbD]
  by_cases hs : s ≤ k
  · have hback : s + (k - s) = k := by omega
    by_cases he : k ≤ e
    · have hin : k - s < e - s + 1 := by omega
      simp [hk, hs, he, hback, hin]
    · have hout : ¬ k - s < e - s + 1 := by omega
      simp [he, hout]
  · simp [hs, Nat.lt_of_not_le hs]

/-- The number of a range is that of its high part and that of its low part, side by side. -/
theorem extractBits_toNat_split {s m e : Nat} (hm : s ≤ m) (he : m < e) (h' : e ≤ 31) (w : Word) :
    (extractBits w s e).toNat =
      (extractBits w (m + 1) e).toNat * 2 ^ (m - s + 1) + (extractBits w s m).toNat := by
  have hwidth : e - s + 1 = (m - s + 1) + (e - (m + 1) + 1) := by omega
  have hstart : s + (m - s + 1) = m + 1 := by omega
  rw [extractBits_toNat w (by omega) h', extractBits_toNat w he h', extractBits_toNat w hm (by omega),
    hwidth, Nat.pow_add, Nat.mod_mul, Nat.div_div_eq_div_mul, ← Nat.pow_add, hstart,
    Nat.add_comm, Nat.mul_comm]

/-- A range of an extracted range is a range of the word. -/
theorem extractBits_extractBits {s e a b : Nat} (hab : a ≤ b) (hb : b ≤ e - s) (w : Word) :
    extractBits (extractBits w s e) a b = extractBits w (s + a) (s + b) := by
  apply BitVec.eq_of_getLsbD_eq
  intro k _
  have hwidth : s + b - (s + a) = b - a := by omega
  rw [extractBits_getLsbD, extractBits_getLsbD, extractBits_getLsbD, hwidth, Nat.add_assoc]
  by_cases hk : k < b - a + 1
  · have hinner : a + k < e - s + 1 := by omega
    rw [decide_eq_true hinner, Bool.and_true]
  · simp only [hk, decide_false, Bool.and_false]

theorem extractBits_toNat_le_mask {s e : Nat} (h : s ≤ e) (h' : e ≤ 31) (w : Word) :
    (extractBits w s e).toNat ≤ (mask (e - s + 1)).toNat := by
  rw [extractBits_toNat w h h', mask_toNat (by omega)]
  exact Nat.le_sub_one_of_lt (Nat.mod_lt _ (Nat.two_pow_pos _))

theorem mask_toNat_lt {n : Nat} (h : n ≤ 32) : (mask n).toNat < 2 ^ n := by
  rw [mask_toNat h]
  exact Nat.sub_one_lt (Nat.two_pow_pos n).ne'

/-- Settles O11, law by law. -/
theorem bitRangeLaws : Obligations.BitRangeLaws := by
  unfold Obligations.BitRangeLaws
  intro w s e h h'
  refine ⟨?readOnes, ?readZeros, ?disjoint, ?lastWins, ?commute, ?reassembly, ?split, ?nest, ?bound,
    ?complement⟩
  case readOnes => exact extractBits_forceOnes h h' w
  case readZeros => exact extractBits_forceZeros h h' w
  case disjoint =>
    exact fun a b hab _ hd => ⟨extractBits_forceOnes_of_disjoint h h' hab hd w,
      extractBits_forceZeros_of_disjoint h h' hab hd w⟩
  case lastWins => exact ⟨forceZeros_forceOnes w s e, forceOnes_forceZeros h h' w⟩
  case commute =>
    exact fun a b hab hb hd => ⟨forceOnes_comm w s e a b, forceZeros_comm w s e a b,
      forceOnes_forceZeros_comm h h' hab hb hd w⟩
  case reassembly => exact (forceZeros_or_extractBits_shiftLeft h h' w).symm
  case split => exact fun m hm he => extractBits_toNat_split hm he h' w
  case nest => exact fun a b hab hb => extractBits_extractBits hab hb w
  case bound => exact ⟨extractBits_toNat_le_mask h h' w, mask_toNat_lt (by omega)⟩
  case complement => exact forceZeros_eq_not_forceOnes_not w s e

/-! `SIGN_FILL`. -/

theorem signFill_getLsbD (v : Word) {top k : Nat} (htop : top ≤ 30) (hk : k < 32) :
    (signFill v top).getLsbD k = if k ≤ top then v.getLsbD k else v.getLsbD top := by
  have hrange : (top + 1 ≤ k ∧ k ≤ 31) ↔ ¬ k ≤ top := by omega
  rw [signFill]
  cases hsign : v.getLsbD top
  · rw [if_neg Bool.false_ne_true, forceZeros_getLsbD_eq_ite (by omega) (by decide)]
    simp only [hrange, ite_not]
  · rw [if_pos rfl, forceOnes_getLsbD_eq_ite (by omega) (by decide)]
    simp only [hrange, ite_not]

/-- It is the sign extension of the low `top + 1` bits, whatever stands above them (R57). -/
theorem signFill_eq_signExtend {v : Word} {top : Nat} (htop : top ≤ 30) :
    signFill v top = (BitVec.ofNat (top + 1) v.toNat).signExtend 32 := by
  apply BitVec.eq_of_getLsbD_eq
  intro k hk
  rw [signFill_getLsbD v htop hk, BitVec.getLsbD_signExtend, BitVec.msb_eq_getLsbD_last,
    BitVec.ofNat_toNat, BitVec.getLsbD_setWidth, BitVec.getLsbD_setWidth]
  by_cases hle : k ≤ top
  · simp [hk, hle, Nat.lt_succ_of_le hle]
  · simp [hk, hle]

/-- Settles O12, by the two values of the top bit. -/
theorem signFillCopiesTheTopBit : Obligations.SignFillCopiesTheTopBit := by
  unfold Obligations.SignFillCopiesTheTopBit
  exact fun v top htop => ⟨fun _ => signFill_getLsbD v htop, fun _ => signFill_eq_signExtend htop⟩

/-! `PLACE`. -/

theorem trunc_cast (n : Nat) (v : Int) : (trunc n v : Int) = v % 2 ^ n := by
  rw [trunc, Int.toNat_of_nonneg (Int.emod_nonneg _ (by positivity))]

theorem trunc_lt (n : Nat) (v : Int) : trunc n v < 2 ^ n := by
  rw [trunc_eq_ofInt]
  exact BitVec.isLt _

theorem place_toNat {width offset : Nat} (hfit : offset + width ≤ 32) (value : Int) :
    (place value width offset).toNat = trunc width value * 2 ^ offset := by
  have hlt : trunc width value * 2 ^ offset < 2 ^ 32 :=
    calc trunc width value * 2 ^ offset
        < 2 ^ width * 2 ^ offset := Nat.mul_lt_mul_of_pos_right (trunc_lt ..) (Nat.two_pow_pos _)
      _ = 2 ^ (offset + width) := by rw [Nat.mul_comm, Nat.pow_add]
      _ ≤ 2 ^ 32 := Nat.pow_le_pow_right (by decide) hfit
  rw [place, Nat.shiftLeft_eq, BitVec.toNat_ofNat, Nat.mod_eq_of_lt hlt]

/-- A placed value has no bit outside its range. -/
theorem place_getLsbD_of_outside {width offset k : Nat} (h : ¬ (offset ≤ k ∧ k < offset + width))
    (value : Int) : (place value width offset).getLsbD k = false := by
  rw [place_getLsbD]
  by_cases hoffset : offset ≤ k
  · rw [BitVec.getLsbD_of_ge (BitVec.ofInt width value) _ (by omega), Bool.and_false, Bool.and_false]
  · rw [decide_eq_false hoffset, Bool.false_and, Bool.and_false]

/-- Clearing its range leaves nothing of a placed value. -/
theorem forceZeros_place {s e : Nat} (h : s ≤ e) (h' : e ≤ 31) (value : Int) :
    forceZeros (place value (e - s + 1) s) s e = 0#32 := by
  apply BitVec.eq_of_getLsbD_eq
  intro k _
  rw [forceZeros_getLsbD_eq_ite h h', BitVec.getLsbD_zero]
  split
  · rfl
  · exact place_getLsbD_of_outside (by omega) value

/-- A placed value is read back from its range, truncated. -/
theorem extractBits_place {s e : Nat} (h : s ≤ e) (h' : e ≤ 31) (value : Int) :
    extractBits (place value (e - s + 1) s) s e = BitVec.ofNat 32 (trunc (e - s + 1) value) := by
  rw [extractBits_eq_ofNat _ h h', place_toNat (by omega), Nat.mul_div_cancel _ (Nat.two_pow_pos s),
    Nat.mod_eq_of_lt (trunc_lt ..)]

/-- Settles O13, by the placed value's number and bits. -/
theorem placeMasksAndShifts : Obligations.PlaceMasksAndShifts := by
  unfold Obligations.PlaceMasksAndShifts
  intro value width offset hpos _ hfit
  have hstart : offset ≤ offset + width - 1 := by omega
  have hstop : offset + width - 1 ≤ 31 := by omega
  have hwidth : offset + width - 1 - offset + 1 = width := by omega
  refine ⟨?_, ?_, ?_⟩
  · rw [place_toNat hfit, Nat.cast_mul, trunc_cast, Nat.cast_pow, Nat.cast_ofNat]
  · have hclear := forceZeros_place hstart hstop value
    rwa [hwidth] at hclear
  · have hread := extractBits_place hstart hstop value
    rwa [hwidth] at hread

/-- Settles O59: the cleared range reads as zero, and a placed value has no bit outside the range. -/
theorem fieldReplacementByComposition : Obligations.FieldReplacementByComposition := by
  unfold Obligations.FieldReplacementByComposition
  intro word value start stop s h
  obtain ⟨hle, h31⟩ := pos_range_of_le h
  refine ⟨_, exec_setBitsToZero_of_le h word s, ?_, fun k _ houtside => ?_⟩
  · rw [exec_getBits_of_le h, extractBits_or, extractBits_forceZeros hle h31,
      extractBits_place hle h31, BitVec.zero_or]
  · rw [BitVec.getLsbD_or, forceZeros_getLsbD_eq_ite hle h31, if_neg houtside,
      place_getLsbD_of_outside (by omega), Bool.or_false]

end Sys2Proof.Machine
end

section
/-! The R-type codec (41_r_type_codec): the packed word as a sum (R70), the fields by division (R71 to
R77), packing and unpacking as inverses (R78, R79), and one field per input (R80, R81). -/

namespace Sys2Proof.Machine

/-! The six fields by division. -/

theorem extractLsb'_eq_ofNat (word : Word) (start width : Nat) :
    word.extractLsb' start width = BitVec.ofNat width (word.toNat / 2 ^ start % 2 ^ width) := by
  apply BitVec.eq_of_toNat_eq
  rw [BitVec.extractLsb'_toNat, BitVec.toNat_ofNat, Nat.shiftRight_eq_div_pow, Nat.mod_mod]

theorem opcodeOf_eq_ofNat (word : Word) : opcodeOf word = BitVec.ofNat 7 (word.toNat % 128) := by
  rw [opcodeOf_eq_slice, extractLsb'_eq_ofNat, Nat.pow_zero, Nat.div_one]
  rfl

theorem rdOf_eq_ofNat (word : Word) :
    rdOf word = BitVec.ofNat 5 (word.toNat / 128 % 32) :=
  (rdOf_eq_slice word).trans (extractLsb'_eq_ofNat word 7 5)

theorem funct3Of_eq_ofNat (word : Word) :
    funct3Of word = BitVec.ofNat 3 (word.toNat / 4096 % 8) :=
  (funct3Of_eq_slice word).trans (extractLsb'_eq_ofNat word 12 3)

theorem rs1Of_eq_ofNat (word : Word) :
    rs1Of word = BitVec.ofNat 5 (word.toNat / 2 ^ 15 % 32) :=
  (rs1Of_eq_slice word).trans (extractLsb'_eq_ofNat word 15 5)

theorem rs2Of_eq_ofNat (word : Word) :
    rs2Of word = BitVec.ofNat 5 (word.toNat / 2 ^ 20 % 32) :=
  (rs2Of_eq_slice word).trans (extractLsb'_eq_ofNat word 20 5)

/-- The topmost field is the whole quotient: no bit stands above it. -/
theorem funct7Of_eq_ofNat (word : Word) : funct7Of word = BitVec.ofNat 7 (word.toNat / 2 ^ 25) := by
  rw [← funct7Of_toNat, BitVec.ofNat_toNat, BitVec.setWidth_eq]

/-- Settles O18: the record's six fields are the slices of the word. -/
theorem rUnpackAnswersTheSixFields : Obligations.RUnpackAnswersTheSixFields := by
  unfold Obligations.RUnpackAnswersTheSixFields
  intro word s
  rw [exec_rUnpack, rFieldsOf, opcodeOf_eq_ofNat, rdOf_eq_ofNat, funct3Of_eq_ofNat, rs1Of_eq_ofNat,
    rs2Of_eq_ofNat, funct7Of_eq_ofNat]
  rfl

/-- Settles O19: each accessor answers its slice of the word. -/
theorem rAccessorsAnswerTheirFields : Obligations.RAccessorsAnswerTheirFields := by
  unfold Obligations.RAccessorsAnswerTheirFields
  intro word s
  refine ⟨?_, ?_, ?_, ?_, ?_, ?_⟩
  · rw [exec_rOpcode, opcodeOf_eq_ofNat]
  · rw [exec_rRd, rdOf_eq_ofNat]
  · rw [exec_rFunct3, funct3Of_eq_ofNat]
  · rw [exec_rRs1, rs1Of_eq_ofNat]
  · rw [exec_rRs2, rs2Of_eq_ofNat]
  · rw [exec_rFunct7, funct7Of_eq_ofNat]

/-! The packed word as a sum. -/

/-- A concatenation's number is the upper part's, moved up, plus the lower part's. -/
theorem append_toNat_eq_add {m n : Nat} (upper : BitVec m) (lower : BitVec n) :
    (upper ++ lower).toNat = upper.toNat * 2 ^ n + lower.toNat := by
  rw [BitVec.toNat_append, ← Nat.shiftLeft_add_eq_or_of_lt lower.isLt, Nat.shiftLeft_eq]

theorem ofInt_natCast_toNat (n k : Nat) : (BitVec.ofInt n (k : Int)).toNat = k % 2 ^ n := by
  rw [BitVec.ofInt_natCast, BitVec.toNat_ofNat]

theorem rWord_toNat (funct7 rs2 rs1 funct3 rd opcode : Nat) :
    (rWord funct7 rs2 rs1 funct3 rd opcode).toNat =
      funct7 % 128 * 2 ^ 25 + rs2 % 32 * 2 ^ 20 + rs1 % 32 * 2 ^ 15 + funct3 % 8 * 2 ^ 12 +
        rd % 32 * 2 ^ 7 + opcode % 128 := by
  rw [rWord_eq_append]
  simp only [append_toNat_eq_add, ofInt_natCast_toNat]
  omega

theorem rWord_eq_ofNat (funct7 rs2 rs1 funct3 rd opcode : Nat) :
    rWord funct7 rs2 rs1 funct3 rd opcode = BitVec.ofNat 32
      (funct7 % 128 * 2 ^ 25 + rs2 % 32 * 2 ^ 20 + rs1 % 32 * 2 ^ 15 + funct3 % 8 * 2 ^ 12 +
        rd % 32 * 2 ^ 7 + opcode % 128) := by
  rw [← rWord_toNat, BitVec.ofNat_toNat, BitVec.setWidth_eq]

/-- Settles O17: the word is the concatenation of the truncated fields, and its number their sum. -/
theorem rPackPlacesEachField : Obligations.RPackPlacesEachField := by
  unfold Obligations.RPackPlacesEachField
  intro funct7 rs2 rs1 funct3 rd opcode s
  rw [exec_rPack, rWord_eq_ofNat]

/-! Packing and unpacking. -/

theorem rFieldsOf_rWord (funct7 rs2 rs1 funct3 rd opcode : Int) :
    rFieldsOf (rWord funct7 rs2 rs1 funct3 rd opcode) =
      { opcode := BitVec.ofInt 7 opcode
        rd     := BitVec.ofInt 5 rd
        funct3 := BitVec.ofInt 3 funct3
        rs1    := BitVec.ofInt 5 rs1
        rs2    := BitVec.ofInt 5 rs2
        funct7 := BitVec.ofInt 7 funct7 } := by
  rw [rFieldsOf, opcodeOf_rWord, rdOf_rWord, funct3Of_rWord, rs1Of_rWord, rs2Of_rWord,
    funct7Of_rWord]

/-- Settles O20: each field of the packed word is its input's low bits. -/
theorem rUnpackRecoversTruncatedInputs : Obligations.RUnpackRecoversTruncatedInputs := by
  unfold Obligations.RUnpackRecoversTruncatedInputs
  intro funct7 rs2 rs1 funct3 rd opcode s s'
  refine ⟨_, exec_rPack funct7 rs2 rs1 funct3 rd opcode s, ?_⟩
  rw [exec_rUnpack, rFieldsOf_rWord]
  simp only [BitVec.ofInt_natCast]

/-- Settles O21: `rFieldsOf` and `repackedR` are inverse to each other. -/
theorem rPackReproducesTheWord : Obligations.RPackReproducesTheWord := by
  unfold Obligations.RPackReproducesTheWord
  constructor
  · intro word s s'
    refine ⟨rFieldsOf word, exec_rUnpack word s, ?_⟩
    rw [exec_repackR, repackedR_rFieldsOf]
  · intro f s s'
    refine ⟨repackedR f, exec_repackR f s, ?_⟩
    rw [exec_rUnpack, rFieldsOf_repackedR]

/-! One field per input. A packed word is the OR of its placed fields, so clearing a field's range
leaves nothing of that field's input. -/

/-- What stands in the word before packing stays beside what is packed. -/
theorem foldl_place_or (v w : Word) (entries : List (Int × Field)) :
    entries.foldl (fun word entry => word ||| place entry.1 entry.2.width entry.2.start) (v ||| w) =
      v ||| entries.foldl (fun word entry => word ||| place entry.1 entry.2.width entry.2.start) w :=
  List.foldl_hom (v ||| ·) fun _ _ => BitVec.or_assoc ..

theorem packFields_cons (entry : Int × Field) (rest : List (Int × Field)) :
    packFields (entry :: rest) = place entry.1 entry.2.width entry.2.start ||| packFields rest := by
  rw [packFields, List.foldl_cons, BitVec.or_comm, foldl_place_or, ← packFields]

theorem packFields_append (upper lower : List (Int × Field)) :
    packFields (upper ++ lower) = packFields upper ||| packFields lower := by
  induction upper with
  | nil => exact BitVec.zero_or.symm
  | cons entry rest ih =>
    rw [List.cons_append, packFields_cons, ih, packFields_cons, BitVec.or_assoc]

theorem forceZeros_or (v w : Word) (s e : Nat) :
    forceZeros (v ||| w) s e = forceZeros v s e ||| forceZeros w s e :=
  BitVec.and_or_distrib_right

/-- Every field of both layouts is a legal range of its declared width (30_encoding R31). -/
theorem layout_field_legal : ∀ f ∈ rLayout ++ iLayout,
    f.start ≤ f.stop ∧ f.stop ≤ 31 ∧ f.width = f.stop - f.start + 1 := by
  decide

/-- Outside its field's range, a packed word does not depend on an entry's value. -/
theorem forceZeros_packFields {f : Field} (hf : f ∈ rLayout ++ iLayout) (value : Int)
    (upper lower : List (Int × Field)) :
    forceZeros (packFields (upper ++ (value, f) :: lower)) f.start f.stop =
      forceZeros (packFields (upper ++ lower)) f.start f.stop := by
  obtain ⟨hle, h31, hwidth⟩ := layout_field_legal f hf
  rw [packFields_append, packFields_cons, packFields_append, hwidth]
  simp only [forceZeros_or, forceZeros_place hle h31, BitVec.zero_or]

theorem xor_and_not_rangeMask_eq_zero {v w : Word} {s e : Nat}
    (h : forceZeros v s e = forceZeros w s e) : (v ^^^ w) &&& ~~~ rangeMask s e = 0 := by
  apply BitVec.eq_of_getLsbD_eq
  intro k _
  have hbit := congrArg (BitVec.getLsbD · k) h
  simp only [forceZeros, BitVec.getLsbD_and] at hbit
  rw [BitVec.getLsbD_and, BitVec.getLsbD_xor, Bool.and_xor_distrib_right, hbit, Bool.xor_self]
  exact BitVec.getLsbD_zero.symm

/-- Two packed words that differ in one entry's value differ only in that entry's field. -/
theorem packFields_xor_and_not_rangeMask {f : Field} (hf : f ∈ rLayout ++ iLayout)
    (value other : Int) (upper lower : List (Int × Field)) :
    (packFields (upper ++ (value, f) :: lower) ^^^ packFields (upper ++ (other, f) :: lower)) &&&
      ~~~ rangeMask f.start f.stop = 0 := by
  apply xor_and_not_rangeMask_eq_zero
  rw [forceZeros_packFields hf, forceZeros_packFields hf]

/-- Settles O23: for each input, the entries above it and below it are left as they are. -/
theorem rEachFieldHasItsOwnInput : Obligations.REachFieldHasItsOwnInput := by
  unfold Obligations.REachFieldHasItsOwnInput
  intro funct7 rs2 rs1 funct3 rd opcode other s
  refine ⟨_, _, _, _, _, _, _, exec_rPack .., exec_rPack .., exec_rPack .., exec_rPack ..,
    exec_rPack .., exec_rPack .., exec_rPack .., ?funct7, ?rs2, ?rs1, ?funct3, ?rd, ?opcode⟩
  case funct7 =>
    exact packFields_xor_and_not_rangeMask (f := funct7Field) (by decide) _ _ [] [_, _, _, _, _]
  case rs2 =>
    exact packFields_xor_and_not_rangeMask (f := rs2Field) (by decide) _ _ [_] [_, _, _, _]
  case rs1 =>
    exact packFields_xor_and_not_rangeMask (f := rs1Field) (by decide) _ _ [_, _] [_, _, _]
  case funct3 =>
    exact packFields_xor_and_not_rangeMask (f := funct3Field) (by decide) _ _ [_, _, _] [_, _]
  case rd =>
    exact packFields_xor_and_not_rangeMask (f := rdField) (by decide) _ _ [_, _, _, _] [_]
  case opcode =>
    exact packFields_xor_and_not_rangeMask (f := opcodeField) (by decide) _ _ [_, _, _, _, _] []

/-- Settles O22: the six words are O17's sums, and their ANDs and OR are computed. -/
theorem rFieldsAreDisjoint : Obligations.RFieldsAreDisjoint := by
  unfold Obligations.RFieldsAreDisjoint
  refine ⟨fun s => ⟨?_, ?_, ?_, ?_, ?_, ?_⟩, ?disjoint, ?cover⟩
  · exact rPackPlacesEachField 127 0 0 0 0 0 s
  · exact rPackPlacesEachField 0 31 0 0 0 0 s
  · exact rPackPlacesEachField 0 0 31 0 0 0 s
  · exact rPackPlacesEachField 0 0 0 7 0 0 s
  · exact rPackPlacesEachField 0 0 0 0 31 0 s
  · exact rPackPlacesEachField 0 0 0 0 0 127 s
  case disjoint => decide
  case cover => decide

end Sys2Proof.Machine
end

section
/-! The I-type codec (42_i_type_codec): the raw immediate (R97), the packed word as a sum (R90), the
fields by division (R91 to R95), the decoded immediate (R96, R98), packing and unpacking as inverses
(R99 to R101), the other format's reading (R102), and the ranges of every output as an invariant of the
step. -/

namespace Sys2Proof.Machine

/-! The invariant. What a unit answers lies in the ranges of its output ports. -/

/-- A number of `w` bits stays below `2^w` in the 8-bit ports of a view (43_debug_view R112). -/
theorem setWidth_eight_toNat_le {w : Nat} (hw : w ≤ 8) (v : BitVec w) :
    (v.setWidth 8).toNat ≤ 2 ^ w - 1 := by
  rw [BitVec.toNat_setWidth_of_le hw]
  exact Nat.le_sub_one_of_lt v.isLt

theorem rView_inRange (f : RFields) : (Output.rDebugView (rView f)).inRange = true := by
  simp only [Output.inRange, Bool.and_eq_true, decide_eq_true_eq]
  and_intros <;> exact setWidth_eight_toNat_le (by decide) _

/-- Sixteen bits hold the immediate of a record of `I_UNPACK` (43_debug_view R113). -/
theorem iView_immediate_toInt {f : IFields} (h : f.wf = true) :
    (iView f).immediate.toInt = f.immediate.toInt := by
  obtain ⟨hmin, hmax⟩ := (iFields_wf_iff f).1 h
  change (f.immediate.setWidth 16).toInt = f.immediate.toInt
  rw [← BitVec.signExtend_eq_setWidth_of_le _ (by decide), BitVec.toInt_signExtend]
  exact Int.bmod_eq_of_le (hmin.trans' (by decide)) (Int.lt_of_le_of_lt hmax (by decide))

theorem iView_inRange {f : IFields} (h : f.wf = true) :
    (Output.iDebugView (iView f)).inRange = true := by
  obtain ⟨hmin, hmax⟩ := (iFields_wf_iff f).1 h
  simp only [Output.inRange, iView_immediate_toInt h, Bool.and_eq_true, decide_eq_true_eq]
  refine ⟨⟨?fields, hmin⟩, hmax⟩
  case fields => and_intros <;> exact setWidth_eight_toNat_le (by decide) _

/-- The value of an evaluation that can be presented lies in the ranges of its output ports. A record
of `I_DEBUG_VIEW` is the one input that has to be in range for it. -/
theorem inRange_of_evaluate_ok {i : Instr} {o : Output} (hwf : i.WellFormed)
    (h : evaluate i = .ok o) : o.inRange = true := by
  cases i
  case getBits => obtain rfl := evalRange_ok h; rfl
  case setBitsToOne => obtain rfl := evalRange_ok h; rfl
  case setBitsToZero => obtain rfl := evalRange_ok h; rfl
  case iUnpack word => cases h; exact iFieldsOf_wf word
  case iImmediate word => cases h; exact iFieldsOf_wf word
  case rDebugView f => cases h; exact rView_inRange f
  case iDebugView f => cases h; exact iView_inRange hwf
  all_goals cases h; rfl

theorem reset_coherent : State.reset.Coherent := ⟨rfl, rfl, .inl rfl⟩

theorem showing_coherent {o : Output} (h : o.inRange = true) : (showing o).Coherent := by
  refine ⟨rfl, ?_, .inl (showing_inputs o)⟩
  rw [showing_outputs, Option.all_some, h]

/-- Settles O50: an idle step leaves the state of reset, and any other leaves nothing but the value of
the presented evaluation. -/
theorem coherenceIsPreserved : Obligations.CoherenceIsPreserved := by
  unfold Obligations.CoherenceIsPreserved
  intro s t hs h
  obtain ⟨hpresentable, -, -⟩ := hs
  cases hi : s.inputs with
  | none =>
    rw [step_none hi] at h
    cases h
    exact ⟨reset_coherent, nofun⟩
  | some i =>
    rw [hi, Option.all_some] at hpresentable
    rw [step_eq_exec hi] at h
    obtain ⟨o, ho, rfl⟩ := exec_next h
    refine ⟨showing_coherent (inRange_of_evaluate_ok hpresentable ho), ?_⟩
    rintro _ ⟨⟩
    exact ⟨o, showing_outputs o, isOf_of_evaluate_ok ho⟩

/-! The raw immediate. -/

theorem raw12_cast (v : Int) : (raw12 v : Int) = v % 4096 := trunc_cast 12 v

/-- Settles O26: every form is the residue modulo 4096, and 4096 divides `2^32`. -/
theorem rawImmediateIsTheLowTwelveBits : Obligations.RawImmediateIsTheLowTwelveBits := by
  unfold Obligations.RawImmediateIsTheLowTwelveBits
  refine ⟨raw12_cast, fun v => ?pattern, fun v hmin hmax => ?nonneg, fun v hmin hmax => ?neg⟩
  case pattern =>
    have hres := raw12_cast v.toInt
    have hint := BitVec.toInt_eq_toNat_cond v
    split at hint <;> omega
  case nonneg => rw [raw12_cast]; omega
  case neg => rw [raw12_cast]; omega

/-! The packed word as a sum. -/

theorem iWord_toNat (immediate : Int) (rs1 funct3 rd opcode : Nat) :
    (iWord immediate rs1 funct3 rd opcode).toNat =
      (immediate % 4096).toNat * 2 ^ 20 + rs1 % 32 * 2 ^ 15 + funct3 % 8 * 2 ^ 12 +
        rd % 32 * 2 ^ 7 + opcode % 128 := by
  have himm : (BitVec.ofInt 12 immediate).toNat = (immediate % 4096).toNat :=
    BitVec.toNat_ofInt immediate
  rw [iWord_eq_append]
  simp only [append_toNat_eq_add, ofInt_natCast_toNat, himm]
  omega

theorem iWord_eq_ofNat (immediate : Int) (rs1 funct3 rd opcode : Nat) :
    iWord immediate rs1 funct3 rd opcode = BitVec.ofNat 32
      ((immediate % 4096).toNat * 2 ^ 20 + rs1 % 32 * 2 ^ 15 + funct3 % 8 * 2 ^ 12 +
        rd % 32 * 2 ^ 7 + opcode % 128) := by
  rw [← iWord_toNat, BitVec.ofNat_toNat, BitVec.setWidth_eq]

/-- Settles O27: the word is the concatenation of the truncated fields, and its number their sum. -/
theorem iPackPlacesEachField : Obligations.IPackPlacesEachField := by
  unfold Obligations.IPackPlacesEachField
  intro immediate rs1 funct3 rd opcode s
  rw [exec_iPack, iWord_eq_ofNat]

/-! The fields by division. -/

/-- The immediate's field is the whole quotient: no bit stands above it. -/
theorem rawImmediate_eq_ofNat (word : Word) :
    word.extractLsb' 20 12 = BitVec.ofNat 12 (word.toNat / 2 ^ 20) := by
  rw [extractLsb'_eq_ofNat, Nat.mod_eq_of_lt (by omega)]

theorem immediateOf_eq_signExtend_ofNat (word : Word) :
    immediateOf word = (BitVec.ofNat 12 (word.toNat / 2 ^ 20)).signExtend 32 := by
  rw [immediateOf_eq_signExtend, rawImmediate_eq_ofNat]

/-- Settles O28: the record's four unsigned fields and its raw immediate are slices of the word. -/
theorem iUnpackAnswersTheFiveFields : Obligations.IUnpackAnswersTheFiveFields := by
  unfold Obligations.IUnpackAnswersTheFiveFields
  intro word s
  rw [exec_iUnpack, iFieldsOf, opcodeOf_eq_ofNat, rdOf_eq_ofNat, funct3Of_eq_ofNat, rs1Of_eq_ofNat,
    immediateOf_eq_signExtend_ofNat]
  rfl

/-- Settles O29: each accessor answers what the R-type accessor of the same field does (R35). -/
theorem iAccessorsAnswerTheirFields : Obligations.IAccessorsAnswerTheirFields := by
  unfold Obligations.IAccessorsAnswerTheirFields
  intro word s
  obtain ⟨hopcode, hrd, hfunct3, hrs1, -⟩ := formatsShareTheirLowFields word s
  obtain ⟨opcode, rd, funct3, rs1, -⟩ := rAccessorsAnswerTheirFields word s
  exact ⟨hopcode.trans opcode, hrd.trans rd, hfunct3.trans funct3, hrs1.trans rs1⟩

/-! The decoded immediate. -/

theorem immediateOf_range (word : Word) :
    -2048 ≤ (immediateOf word).toInt ∧ (immediateOf word).toInt ≤ 2047 :=
  (iFields_wf_iff _).1 (iFieldsOf_wf word)

theorem getLsbD_31_eq_decide (word : Word) : word.getLsbD 31 = decide (2 ^ 31 ≤ word.toNat) :=
  (BitVec.msb_eq_getLsbD_last word).symm.trans (BitVec.msb_eq_decide word)

/-- The number decoded is the raw one, less 4096 when the word's top bit is set (R98). -/
theorem immediateOf_toInt_eq_sub (word : Word) :
    (immediateOf word).toInt =
      (word.toNat / 2 ^ 20 : Nat) - 4096 * (if word.getLsbD 31 then 1 else 0) := by
  rw [immediateOf_toInt, rawImmediate_eq_ofNat, BitVec.toInt_eq_toNat_cond, BitVec.toNat_ofNat,
    Nat.mod_eq_of_lt (by omega), getLsbD_31_eq_decide]
  simp only [decide_eq_true_iff]
  split <;> split <;> omega

theorem immediateOf_toNat (word : Word) :
    (immediateOf word).toNat = (if word.getLsbD 31 then word.toNat / 2 ^ 20 + 0xFFFFF000
      else word.toNat / 2 ^ 20) := by
  have hint := immediateOf_toInt_eq_sub word
  rw [BitVec.toInt_eq_toNat_cond] at hint
  split_ifs at hint ⊢ <;> omega

/-- The procedure of R96: the sign is read at bit 11 of the extracted value, which is `word[31]`. -/
theorem immediateOf_eq_ite (word : Word) :
    immediateOf word = if word.getLsbD 31 then forceOnes (extractBits word 20 31) 12 31
      else forceZeros (extractBits word 20 31) 12 31 := by
  have hsign : (extractBits word 20 31).getLsbD 11 = word.getLsbD 31 := by
    rw [extractBits_getLsbD]
    exact Bool.and_true _
  rw [← hsign]
  rfl

/-- Settles O30, by the procedure and its result's number. -/
theorem iImmediateSignExtends : Obligations.IImmediateSignExtends := by
  unfold Obligations.IImmediateSignExtends
  intro word s
  refine ⟨immediateOf word, exec_iImmediate word s, immediateOf_toNat word, immediateOf_eq_ite word,
    ?signed, immediateOf_range word⟩
  case signed =>
    rw [BitVec.toInt_eq_toNat_cond]
    split <;> split <;> omega

/-- The arithmetic right shift of the word by 20 (R98). -/
theorem immediateOf_toInt_eq_div (word : Word) :
    (immediateOf word).toInt = word.toInt / 2 ^ 20 := by
  rw [immediateOf_toInt_eq_sub, getLsbD_31_eq_decide, BitVec.toInt_eq_toNat_cond]
  simp only [decide_eq_true_iff]
  split <;> split <;> omega

/-- The raw twelve bits of the decoded immediate are the ones it was decoded from (R98). -/
theorem raw12_immediateOf (word : Word) : raw12 (immediateOf word).toInt = word.toNat / 2 ^ 20 := by
  have hres := raw12_cast (immediateOf word).toInt
  rw [immediateOf_toInt_eq_sub] at hres ⊢
  omega

/-- Settles O31, by the sign extension of the twelve bits and by its number. -/
theorem immediateClosedForms : Obligations.ImmediateClosedForms := by
  unfold Obligations.ImmediateClosedForms
  intro word s
  have hsigned : (immediateOf word).toInt = (BitVec.ofNat 12 (word.toNat / 2 ^ 20)).toInt := by
    rw [immediateOf_toInt, rawImmediate_eq_ofNat]
  exact ⟨immediateOf word, exec_iImmediate word s, immediateOf_toInt_eq_sub word, hsigned,
    immediateOf_eq_signExtend_ofNat word, immediateOf_toInt_eq_div word, raw12_immediateOf word⟩

/-! Packing and unpacking. -/

theorem iFieldsOf_iWord (immediate rs1 funct3 rd opcode : Int) :
    iFieldsOf (iWord immediate rs1 funct3 rd opcode) =
      { opcode    := BitVec.ofInt 7 opcode
        rd        := BitVec.ofInt 5 rd
        funct3    := BitVec.ofInt 3 funct3
        rs1       := BitVec.ofInt 5 rs1
        immediate := (BitVec.ofInt 12 immediate).signExtend 32 } := by
  rw [iFieldsOf, opcodeOf_iWord, rdOf_iWord, funct3Of_iWord, rs1Of_iWord, immediateOf_iWord]

/-- Twelve bits hold exactly the numbers of the immediate's range. -/
theorem toInt_ofInt_immediate_eq_iff (v : Int) :
    (BitVec.ofInt 12 v).toInt = v ↔ -2048 ≤ v ∧ v ≤ 2047 := by
  constructor
  · intro h
    rw [← h]
    exact ⟨BitVec.le_toInt _, BitVec.toInt_le⟩
  · rintro ⟨hmin, hmax⟩
    exact toInt_ofInt_immediate hmin hmax

/-- Settles O32: each field is its input's low bits, and a number of the immediate's range is fixed by
its residue modulo 4096. -/
theorem iUnpackRecoversTruncatedInputs : Obligations.IUnpackRecoversTruncatedInputs := by
  unfold Obligations.IUnpackRecoversTruncatedInputs
  intro immediate rs1 funct3 rd opcode s s'
  have himm : ((BitVec.ofInt 12 immediate.toInt).signExtend 32).toInt =
      (BitVec.ofInt 12 immediate.toInt).toInt := BitVec.toInt_signExtend_of_le (by decide)
  refine ⟨_, _, exec_iPack immediate rs1 funct3 rd opcode s, exec_iUnpack _ s', ?_⟩
  rw [iFieldsOf_iWord, himm]
  refine ⟨BitVec.ofInt_natCast .., BitVec.ofInt_natCast .., BitVec.ofInt_natCast ..,
    BitVec.ofInt_natCast .., rfl, toInt_ofInt_immediate_eq_iff _, fun k hmin hmax hk => ?_⟩
  rw [← ofInt_eq_of_emod_eq (n := 12) hk, toInt_ofInt_immediate hmin hmax]

/-- Settles O33: `iFieldsOf` and `repackedI` are inverse to each other on well-formed records. -/
theorem iPackReproducesTheWord : Obligations.IPackReproducesTheWord := by
  unfold Obligations.IPackReproducesTheWord
  constructor
  · intro word s s'
    refine ⟨iFieldsOf word, iFieldsOf_wf word, exec_iUnpack word s, ?_⟩
    rw [exec_repackI, repackedI_iFieldsOf]
  · intro f s s' hf
    refine ⟨repackedI f, exec_repackI f s, ?_⟩
    rw [exec_iUnpack, iFieldsOf_repackedI hf]

/-- Settles O34: the five words are O27's sums, and their ANDs and OR are computed. -/
theorem iFieldsAreDisjoint : Obligations.IFieldsAreDisjoint := by
  unfold Obligations.IFieldsAreDisjoint
  refine ⟨fun s => ⟨?_, ?_, ?_, ?_, ?_, ?_⟩, ?disjoint, ?cover⟩
  · exact iPackPlacesEachField (-1) 0 0 0 0 s
  · exact iPackPlacesEachField 4095 0 0 0 0 s
  · exact iPackPlacesEachField 0 31 0 0 0 s
  · exact iPackPlacesEachField 0 0 7 0 0 s
  · exact iPackPlacesEachField 0 0 0 31 0 s
  · exact iPackPlacesEachField 0 0 0 0 127 s
  case disjoint => decide
  case cover => decide

/-! One format's word read by the other format's codec. -/

/-- The I-type reading shares the R-type reading's low fields (30_encoding R35). -/
theorem iFieldsOf_eq_of_rFieldsOf {word : Word} {f : RFields} (h : rFieldsOf word = f) :
    iFieldsOf word = { opcode := f.opcode, rd := f.rd, funct3 := f.funct3, rs1 := f.rs1
                       immediate := immediateOf word } := by
  subst h
  rfl

/-- The R-type reading shares the I-type reading's low fields, and its upper two split the raw twelve
bits of the immediate (30_encoding R35). -/
theorem rFieldsOf_eq_of_iFieldsOf {word : Word} {f : IFields} (h : iFieldsOf word = f) :
    rFieldsOf word = { opcode := f.opcode, rd := f.rd, funct3 := f.funct3, rs1 := f.rs1
                       rs2 := BitVec.ofNat 5 (raw12 f.immediate.toInt % 32)
                       funct7 := BitVec.ofNat 7 (raw12 f.immediate.toInt / 32) } := by
  subst h
  rw [rFieldsOf, rs2Of_eq_ofNat, funct7Of_eq_ofNat, iFieldsOf, raw12_immediateOf,
    Nat.div_div_eq_div_mul]
  rfl

/-- A raw immediate made of `funct7 ‖ rs2` is negative exactly when the top bit of `funct7` is set. -/
theorem immediateOf_toInt_neg_iff (word : Word) :
    (immediateOf word).toInt < 0 ↔ 64 ≤ (funct7Of word).toNat := by
  rw [immediateOf_toInt_eq_sub, funct7Of_toNat, getLsbD_31_eq_decide]
  simp only [decide_eq_true_iff]
  split <;> omega

/-- Settles O35: both codecs read the packed word's slices, and `funct7 ‖ rs2` is the raw immediate. -/
theorem crossFormatReadings : Obligations.CrossFormatReadings := by
  unfold Obligations.CrossFormatReadings
  constructor
  · intro f s s'
    have hf : rFieldsOf (repackedR f) = f := rFieldsOf_repackedR f
    have hfunct7 : funct7Of (repackedR f) = f.funct7 := congrArg RFields.funct7 hf
    have hrs2 : rs2Of (repackedR f) = f.rs2 := congrArg RFields.rs2 hf
    refine ⟨repackedR f, immediateOf (repackedR f), exec_repackR f s, ?_, ?_, ?_⟩
    · rw [exec_iUnpack, iFieldsOf_eq_of_rFieldsOf hf]
    · rw [immediateOf_toInt, rawImmediate_eq_ofNat, rawImmediate_eq_funct7Of_rs2Of, hfunct7, hrs2]
    · rw [immediateOf_toInt_neg_iff, hfunct7]
  · intro f s s' hf
    refine ⟨repackedI f, exec_repackI f s, ?_⟩
    rw [exec_rUnpack, rFieldsOf_eq_of_iFieldsOf (iFieldsOf_repackedI hf)]

end Sys2Proof.Machine
end

section
/-! The debug view (43_debug_view): its numbers are the record's (R112, R113), and so a view
determines the record it was made of, and with it the word (R115). -/

namespace Sys2Proof.Machine

@[simp] theorem shown_next_showing (o : Output) : shown (.next (showing o)) = some o := rfl

/-! The 8-bit ports. -/

/-- Bit 7 of a view's port is above every unsigned field (R112). -/
theorem setWidth_eight_getLsbD_seven {w : Nat} (hw : w ≤ 7) (v : BitVec w) :
    (v.setWidth 8).getLsbD 7 = false := by
  rw [BitVec.getLsbD_setWidth, BitVec.getLsbD_of_ge v 7 hw, Bool.and_false]

theorem setWidth_eight_injective {w : Nat} (hw : w ≤ 8) :
    Function.Injective (BitVec.setWidth 8 : BitVec w → U8) := by
  intro v v' h
  have hnum := congrArg BitVec.toNat h
  rw [BitVec.toNat_setWidth_of_le hw, BitVec.toNat_setWidth_of_le hw] at hnum
  exact BitVec.eq_of_toNat_eq hnum

/-- Settles O37: a field of at most seven bits is zero-extended to eight. -/
theorem rDebugViewKeepsEveryNumber : Obligations.RDebugViewKeepsEveryNumber := by
  unfold Obligations.RDebugViewKeepsEveryNumber
  intro f s
  refine ⟨rView f, exec_rDebugView f s, ?opcode, ?rd, ?funct3, ?rs1, ?rs2, ?funct7, ?bit7⟩
  case bit7 => and_intros <;> exact setWidth_eight_getLsbD_seven (by decide) _
  all_goals exact BitVec.toNat_setWidth_of_le (by decide)

/-! The 16-bit port of the immediate. -/

/-- The view's immediate is the low 16 bits of the record's pattern (R113). -/
theorem iView_immediate_toNat (f : IFields) :
    (iView f).immediate.toNat = f.immediate.toNat % 2 ^ 16 :=
  BitVec.toNat_setWidth 16 f.immediate

/-- As a signed number too, the view's immediate is the record's modulo 2^16. -/
theorem iView_immediate_toInt_emod (f : IFields) :
    (iView f).immediate.toInt % 2 ^ 16 = f.immediate.toInt % 2 ^ 16 := by
  have hnarrow : (iView f).immediate = f.immediate.signExtend 16 :=
    (BitVec.signExtend_eq_setWidth_of_le f.immediate (by decide)).symm
  rw [hnarrow, BitVec.toInt_signExtend]
  exact Int.bmod_emod

/-- Settles O39: the four unsigned fields are zero-extended, and narrowing keeps the residue modulo
2^16, whatever the record. -/
theorem iDebugViewCompletesOnEveryRecord : Obligations.IDebugViewCompletesOnEveryRecord := by
  unfold Obligations.IDebugViewCompletesOnEveryRecord
  intro f s
  refine ⟨iView f, exec_iDebugView f s, ?opcode, ?rd, ?funct3, ?rs1, iView_immediate_toNat f,
    iView_immediate_toInt_emod f⟩
  all_goals exact BitVec.toNat_setWidth_of_le (by decide)

/-- Settles O38: on an unpacked record the sixteen bits kept hold the immediate's number. -/
theorem iDebugViewKeepsEveryNumber : Obligations.IDebugViewKeepsEveryNumber := by
  unfold Obligations.IDebugViewKeepsEveryNumber
  intro f s hf
  refine ⟨iView f, exec_iDebugView f s, ?opcode, ?rd, ?funct3, ?rs1, ?_, ?_, ?_, ?_,
    iView_immediate_toNat f, iView_immediate_toInt hf⟩
  case opcode | rd | funct3 | rs1 => exact BitVec.toNat_setWidth_of_le (by decide)
  all_goals exact setWidth_eight_getLsbD_seven (by decide) _

/-! A view determines the word. -/

/-- No two R-type records have the same view: each container holds its field whole. -/
theorem rView_injective : Function.Injective rView := by
  rintro ⟨⟩ ⟨⟩ h
  obtain ⟨hopcode, hrd, hfunct3, hrs1, hrs2, hfunct7⟩ := RDebugView.mk.inj h
  rw [RFields.mk.injEq]
  exact ⟨setWidth_eight_injective (by decide) hopcode, setWidth_eight_injective (by decide) hrd,
    setWidth_eight_injective (by decide) hfunct3, setWidth_eight_injective (by decide) hrs1,
    setWidth_eight_injective (by decide) hrs2, setWidth_eight_injective (by decide) hfunct7⟩

/-- No two unpacked I-type records have the same view. Their immediates are in the range that
sixteen bits tell apart. -/
theorem iView_injOn_wf : Set.InjOn iView {f | f.wf = true} := by
  intro f hf f' hf' h
  have himmediate : f.immediate = f'.immediate := by
    apply BitVec.eq_of_toInt_eq
    rw [← iView_immediate_toInt hf, h, iView_immediate_toInt hf']
  cases f
  cases f'
  obtain ⟨hopcode, hrd, hfunct3, hrs1, -⟩ := IDebugView.mk.inj h
  rw [IFields.mk.injEq]
  exact ⟨setWidth_eight_injective (by decide) hopcode, setWidth_eight_injective (by decide) hrd,
    setWidth_eight_injective (by decide) hfunct3, setWidth_eight_injective (by decide) hrs1,
    himmediate⟩

theorem rFieldsOf_injective : Function.Injective rFieldsOf :=
  Function.LeftInverse.injective repackedR_rFieldsOf

theorem iFieldsOf_injective : Function.Injective iFieldsOf :=
  Function.LeftInverse.injective repackedI_iFieldsOf

/-- Settles O40: the view determines the record, and the record packs to the word. -/
theorem viewsAreEqualExactlyForOneWord : Obligations.ViewsAreEqualExactlyForOneWord := by
  unfold Obligations.ViewsAreEqualExactlyForOneWord
  intro word word' s
  refine ⟨⟨rFieldsOf word, rFieldsOf word', exec_rUnpack word s, exec_rUnpack word' s, ?rType⟩,
    ⟨iFieldsOf word, iFieldsOf word', exec_iUnpack word s, exec_iUnpack word' s, ?iType⟩⟩
  case rType =>
    rw [exec_rDebugView, exec_rDebugView, shown_next_showing, shown_next_showing, Option.some_inj,
      Output.rDebugView.injEq, rView_injective.eq_iff, rFieldsOf_injective.eq_iff]
  case iType =>
    rw [exec_iDebugView, exec_iDebugView, shown_next_showing, shown_next_showing, Option.some_inj,
      Output.iDebugView.injEq, iView_injOn_wf.eq_iff (iFieldsOf_wf word) (iFieldsOf_wf word'),
      iFieldsOf_injective.eq_iff]

end Sys2Proof.Machine
end

section
/-! The one fault (60_exceptions): a range outside `0 ≤ start ≤ stop ≤ 31` is a `RangeFault` with no value
(R120, R122), no other evaluation faults (R121), and a sequence ends in the fault of its first evaluation
that has one (R123). -/

namespace Sys2Proof.Machine

/-! The shared check. -/

theorem legalRange_false_iff (start stop : Nat) :
    legalRange start stop = false ↔ ¬ (start ≤ stop ∧ stop ≤ 31) := by
  rw [← legalRange_iff, Bool.not_eq_true]

theorem rangeFaultFlag_eq_one_iff (start stop : Nat) :
    rangeFaultFlag start stop = 1 ↔ legalRange start stop = false := by
  rw [rangeFaultFlag]
  cases legalRange start stop <;> decide

/-- Whether a bit-range evaluation faults, and how, is read off the operation and the range alone (R123). -/
theorem faultOf_conclude_evalRange (b : Block) (op : BitRangeOp) (result : Word) (start stop : Nat) :
    faultOf (conclude (inBlock b (evalRange op result start stop))) =
      if legalRange start stop = true then none else some (.rangeFault op start stop) := by
  obtain ⟨hlegal, h⟩ | ⟨hillegal, h⟩ := conclude_evalRange_cases b op result start stop
  · rw [h, hlegal]
    rfl
  · rw [h, hillegal]
    rfl

/-- On the 5-bit ports the one way to fault is a range upside down (D3). -/
theorem eq_rangeFault_of_conclude_evalRange {b : Block} {op : BitRangeOp} {result : Word}
    {start stop : Pos} {f : Fault}
    (h : conclude (inBlock b (evalRange op result start.toNat stop.toNat)) = .fault f) :
    stop < start ∧ f = .rangeFault op start.toNat stop.toNat := by
  obtain ⟨-, hnext⟩ | ⟨hillegal, hfault⟩ :=
    conclude_evalRange_cases b op result start.toNat stop.toNat
  · rw [hnext] at h
    cases h
  · rw [hfault] at h
    cases h
    exact ⟨(legalRange_pos_false_iff start stop).1 hillegal, rfl⟩

/-- Settles O4, by the two answers of the shared check. -/
theorem rangeFaultExactlyOnIllegalRanges : Obligations.RangeFaultExactlyOnIllegalRanges := by
  unfold Obligations.RangeFaultExactlyOnIllegalRanges
  intro b op result start stop
  constructor
  · intro h
    exact evalRange_legal ((legalRange_iff start stop).2 h) op result
  · intro h
    have hillegal : legalRange start stop = false := (legalRange_false_iff start stop).2 h
    refine ⟨evalRange_illegal hillegal op result, ?_⟩
    rw [conclude_evalRange_illegal hillegal, shown]

/-! Which evaluations fault. -/

/-- Settles O5: the three bit-range units answer the shared check, and every other unit has a next
state. -/
theorem onlyBitRangeOperationsFault : Obligations.OnlyBitRangeOperationsFault := by
  unfold Obligations.OnlyBitRangeOperationsFault
  intro i s f h
  cases i
  case getBits word start stop =>
    obtain ⟨hlt, hf⟩ := eq_rangeFault_of_conclude_evalRange h
    exact ⟨word, start, stop, hlt, .inl ⟨rfl, hf⟩⟩
  case setBitsToOne word start stop =>
    obtain ⟨hlt, hf⟩ := eq_rangeFault_of_conclude_evalRange h
    exact ⟨word, start, stop, hlt, .inr (.inl ⟨rfl, hf⟩)⟩
  case setBitsToZero word start stop =>
    obtain ⟨hlt, hf⟩ := eq_rangeFault_of_conclude_evalRange h
    exact ⟨word, start, stop, hlt, .inr (.inr ⟨rfl, hf⟩)⟩
  all_goals cases h

/-- Settles O45: an evaluation completes exactly when it has a value, which a legal call does. -/
theorem legalCallsCompleteInEveryState : Obligations.LegalCallsCompleteInEveryState := by
  unfold Obligations.LegalCallsCompleteInEveryState
  intro i s
  rw [← evaluate_ok_iff_legalCall]
  constructor
  · rintro ⟨t, ht⟩
    obtain ⟨o, ho, -⟩ := exec_next ht
    exact ⟨o, ho⟩
  · rintro ⟨o, ho⟩
    exact ⟨showing o, exec_of_evaluate_ok ho s⟩

/-! A fault in a sequence. -/

theorem evaluateAll_cons_of_fault {i : Instr} {s : State} {f : Fault}
    (h : step (s.present i) = .fault f) (rest : List Instr) :
    evaluateAll (i :: rest) s = .fault f := by
  rw [evaluateAll, h]

theorem evaluateAll_cons_of_rest_fault {i : Instr} {rest : List Instr} {s t : State} {f : Fault}
    (h : step (s.present i) = .next t) (hrest : evaluateAll rest t = .fault f) :
    evaluateAll (i :: rest) s = .fault f := by
  simp only [evaluateAll, h, hrest]

/-- After calls that have a result, a sequence has the fault of the calls that follow. -/
theorem evaluateAll_append_fault {before after : List Instr} {os : List (Option Output)}
    {s s' : State} {f : Fault}
    (hbefore : evaluateAll before s = .next os) (hafter : evaluateAll after s' = .fault f) :
    evaluateAll (before ++ after) s = .fault f := by
  induction before generalizing s os with
  | nil => rw [List.nil_append, evaluateAll_congr after s s', hafter]
  | cons i rest ih =>
    obtain ⟨t, _, hstep, hrest, -⟩ := (evaluateAll_cons_eq_next_iff i rest s os).1 hbefore
    exact evaluateAll_cons_of_rest_fault hstep (ih hrest)

/-- Settles O6: the flag and the fault are read off the range, and legal calls (O49) have a result for
the faulting one to follow. -/
theorem rangeFaultIsCombinationalAndCarriedForward :
    Obligations.RangeFaultIsCombinationalAndCarriedForward := by
  unfold Obligations.RangeFaultIsCombinationalAndCarriedForward
  refine ⟨?flag, ?combinational, ?carried⟩
  case flag =>
    intro start stop
    rw [rangeFaultFlag_eq_one_iff, legalRange_pos_false_iff]
  case combinational =>
    intro word word' start stop s s'
    refine ⟨?_, ?_, ?_⟩
    · rw [exec_getBits, exec_getBits, faultOf_conclude_evalRange, faultOf_conclude_evalRange]
    · rw [exec_setBitsToOne, exec_setBitsToOne, faultOf_conclude_evalRange,
        faultOf_conclude_evalRange]
    · rw [exec_setBitsToZero, exec_setBitsToZero, faultOf_conclude_evalRange,
        faultOf_conclude_evalRange]
  case carried =>
    intro before after i s f hlegal hfault
    have hstep : step (s.present i) = .fault f := by
      rw [step_present s State.reset, hfault]
    exact evaluateAll_append_fault (evaluationsOfASequenceAreIndependent before s hlegal)
      (evaluateAll_cons_of_fault hstep after)

end Sys2Proof.Machine
end

section
/-! Reset and hazards (70_reset_and_hazards): reset holds nothing (R135), a caller of a pack finds a
truncation by comparing (R139), and fixed words show where the fields sit (R143). -/

namespace Sys2Proof.Machine

/-! Which inputs a field holds. -/

/-- A field of `n` bits holds exactly the numbers that fit it (R139). -/
theorem toNat_ofInt_natCast_eq_iff (n k : Nat) :
    (BitVec.ofInt n (k : Int)).toNat = k ↔ k ≤ 2 ^ n - 1 := by
  rw [ofInt_natCast_toNat, Nat.mod_eq_iff_lt (Nat.two_pow_pos n).ne',
    Nat.le_sub_one_iff_lt (Nat.two_pow_pos n)]

/-- What `I_UNPACK` reads back of a packed immediate is the immediate itself exactly in its range. -/
theorem toInt_signExtend_ofInt_immediate_eq_iff (v : Int) :
    ((BitVec.ofInt 12 v).signExtend 32).toInt = v ↔ -2048 ≤ v ∧ v ≤ 2047 := by
  rw [BitVec.toInt_signExtend_of_le (by decide), toInt_ofInt_immediate_eq_iff]

/-- Settles O24: each field reads back as its input's pattern at the field's width, which is the input
exactly when it fits. -/
theorem truncationShowsOnlyByComparison : Obligations.TruncationShowsOnlyByComparison := by
  unfold Obligations.TruncationShowsOnlyByComparison
  constructor
  · intro funct7 rs2 rs1 funct3 rd opcode s s'
    refine ⟨_, _, exec_rPack funct7 rs2 rs1 funct3 rd opcode s, exec_rUnpack _ s', ?_⟩
    rw [rFieldsOf_rWord]
    simp only [toNat_ofInt_natCast_eq_iff, Nat.reducePow, Nat.reduceSub]
  · intro immediate rs1 funct3 rd opcode s s'
    refine ⟨_, _, exec_iPack immediate rs1 funct3 rd opcode s, exec_iUnpack _ s', ?_⟩
    rw [iFieldsOf_iWord]
    simp only [toInt_signExtend_ofInt_immediate_eq_iff, toNat_ofInt_natCast_eq_iff, Nat.reducePow,
      Nat.reduceSub, and_assoc]

/-! Reset. -/

/-- Settles O51: with nothing presented and nothing shown, nothing can be out of range. -/
theorem resetIsCoherent : Obligations.ResetIsCoherent := reset_coherent

/-- Settles O52: presenting forgets the state, so a step made from reset is the one made from `s`. -/
theorem resetHoldsNothing : Obligations.ResetHoldsNothing := by
  unfold Obligations.ResetHoldsNothing
  refine ⟨State.reset_inputs, State.reset_outputs, fun i s => ?_⟩
  have hstep : step (State.reset.present i) = step (s.present i) := by
    rw [step_present State.reset s, step_present s s]
  exact ⟨congrArg shown hstep, congrArg faultOf hstep⟩

/-! The source's fixed words. -/

/-- Settles O58: the unpacked fields are O18's and O28's quotients, the packed word O27's sum, each
computed at the source's numbers. -/
theorem sourceFixedWordsUnpack : Obligations.SourceFixedWordsUnpack := by
  unfold Obligations.SourceFixedWordsUnpack
  intro s
  refine ⟨?v1, ?v2Pack, ?v2, ?v3⟩
  case v1 => exact rUnpackAnswersTheSixFields 0x01738633 s
  case v2Pack => exact iPackPlacesEachField (BitVec.ofInt 32 (-20)) 27 0 6 19 s
  case v2 => exact iUnpackAnswersTheFiveFields 0xFECD8313 s
  case v3 => exact iUnpackAnswersTheFiveFields 0x0F053483 s

end Sys2Proof.Machine
end

section
/-! Refused frames (log entry 2): which port words and which unit numbers no reading accepts, and the
name each is refused by. -/

namespace Sys2Proof

theorem narrowPort_of_two_pow_le {width : Nat} {port : Word} (h : 2 ^ width ≤ port.toNat) :
    narrowPort width port = .error (.portTooWide width) := by
  rw [narrowPort, if_neg (Nat.not_lt.mpr h)]

/-- A start port above 31 refuses a bit-range frame before its stop port is read. -/
theorem decodeRange_of_wide_start {op : Word → Pos → Pos → Instr} {word start stop : Word}
    (h : 2 ^ 5 ≤ start.toNat) : decodeRange op word start stop = .error (.portTooWide 5) := by
  rw [decodeRange, narrowPort_of_two_pow_le h]
  rfl

/-- The ports of a record that is not well formed are read back, and the record is refused. -/
theorem decodeIFields_of_not_wf {f : IFields} (h : f.wf = false) :
    decodeIFields f.immediate (f.rs1.setWidth 32) (f.funct3.setWidth 32) (f.rd.setWidth 32)
      (f.opcode.setWidth 32) = .error .immediateOutOfRange := by
  simp only [decodeIFields, narrowPort_setWidth, Nat.reduceLeDiff]
  exact if_neg (Bool.eq_false_iff.mp h)

/-- The table has the rows 0 to 19, and a unit number above them is refused whatever the ports hold. -/
theorem decodeUnit_of_twenty_le {unit : Nat} (h : 20 ≤ unit) (p0 p1 p2 p3 p4 p5 : Word) :
    decodeUnit unit p0 p1 p2 p3 p4 p5 = .error (.unknownUnit unit) := by
  obtain ⟨n, rfl⟩ := Nat.exists_eq_add_of_le' h
  rfl

/-- Settles O57: the three frames that are read are those `encode` writes (O55), and the other three
have a record out of range, a start position above 31 and a unit number above the table's. -/
theorem writtenFramesDecode : Obligations.WrittenFramesDecode := by
  unfold Obligations.WrittenFramesDecode
  refine ⟨?unpackV1, ?rangeOfV2, ?packV2, ?record, ?position, ?unit⟩
  case unpackV1 => exact decodeOfEncodeIsTheEvaluation (.rUnpack 0x01738633) rfl
  case rangeOfV2 => exact decodeOfEncodeIsTheEvaluation (.getBits 0xFECD8313 20 31) rfl
  case packV2 =>
    exact decodeOfEncodeIsTheEvaluation (.iPack (BitVec.ofInt 32 (-20)) 27 0 6 19) rfl
  case record => exact decodeIFields_of_not_wf (f := ⟨0, 0, 0, 0, BitVec.ofInt 32 2048⟩) rfl
  case position => exact decodeRange_of_wide_start (start := 32) (by decide)
  case unit => exact decodeUnit_of_twenty_le (Nat.le_refl 20) 0 0 0 0 0 0

end Sys2Proof
end
